-- ==== Sys2Proof/Word.lean ====
section
/-!
DEFINITION. The widths the machine's data come in (10_state.md R10, R13, R16; 30_encoding.md R63, R64).
-/

namespace Sys2Proof

/-- A memory byte, a general register or a timer: 8 bits, unsigned (R10, R19, R20, R40). -/
abbrev Byte := BitVec 8

/-- An opcode, an address register (`I`, `PC`) or a stack slot: 16 bits, unsigned (R13, R16, R17, R63). -/
abbrev Word := BitVec 16

/-- The 4-bit field `n`, and the family nibble (R64). -/
abbrev Nibble := BitVec 4

/-- The 12-bit address field `nnn` (R64, R69). -/
abbrev Imm12 := BitVec 12

end Sys2Proof
end

