-- ==== Sys2Proof/Config.lean ====
section
/-!
DEFINITION. What the implementation fixes (00_scope.md R4, at the spec's default values) and the one free
value: the random byte of Cxnn (92_eei_decisions.md D19).
-/

namespace Sys2Proof

/-- `LOAD_BASE`, where a program image is loaded and where `PC` starts (R4, R33, R231; log 7). -/
abbrev Config.loadBase : Nat := 0x200

/-- `FONT_BASE`, the address of the first font glyph (R4, R44; D24; log 7). -/
abbrev Config.fontBase : Nat := 0x000

/-- `FONT_GLYPH_BYTES`, the distance between two glyphs (R4, R44). -/
abbrev Config.fontGlyphBytes : Nat := 5

/-- `FONT`, the 80 font bytes of 20_memory.md R45, one glyph a line.
UNVERIFIED: the spec takes them from general knowledge (93_implementation_defined.md G1); unsafe (log 5). -/
def Config.font : List Byte :=
  [0xF0, 0x90, 0x90, 0x90, 0xF0,  -- 0
   0x20, 0x60, 0x20, 0x20, 0x70,  -- 1
   0xF0, 0x10, 0xF0, 0x80, 0xF0,  -- 2
   0xF0, 0x10, 0xF0, 0x10, 0xF0,  -- 3
   0x90, 0x90, 0xF0, 0x10, 0x10,  -- 4
   0xF0, 0x80, 0xF0, 0x10, 0xF0,  -- 5
   0xF0, 0x80, 0xF0, 0x90, 0xF0,  -- 6
   0xF0, 0x10, 0x20, 0x40, 0x40] ++  -- 7
  [0xF0, 0x90, 0xF0, 0x90, 0xF0,  -- 8
   0xF0, 0x90, 0xF0, 0x10, 0xF0,  -- 9
   0xF0, 0x90, 0xF0, 0x90, 0x90,  -- A
   0xE0, 0x90, 0xE0, 0x90, 0xE0,  -- B
   0xF0, 0x80, 0x80, 0x80, 0xF0,  -- C
   0xE0, 0x90, 0x90, 0x90, 0xE0,  -- D
   0xF0, 0x80, 0xF0, 0x80, 0xF0,  -- E
   0xF0, 0x80, 0xF0, 0x80, 0x80]  -- F

/-- FREE VALUE: the random byte the k-th execution of Cxnn draws (R38, R113, D19 "OPEN"). It has no body, so
nothing can be proved about a draw but that it is a byte. DESIGN CHOICE (the form), log 1. -/
opaque Config.freeRand : Nat → Byte

end Sys2Proof
end

