-- ==== Sys2Proof/Syntax.lean ====
section
/-!
DEFINITION. The instructions: one constructor per row of spec/opcode_table.json, in the table's order
(30_encoding.md R65). Every field has exactly the width of its encoding (R64), so that every term of `Instr` is an
instruction the encoding can hold.
-/

namespace Sys2Proof

/-- A general register number, V0 to VF (R10). -/
abbrev Reg := Fin 16

/-- VF, the flag register (R11). -/
abbrev Reg.flag : Reg := 15

/-- The 34 instructions (R65). The rule that gives each its meaning stands beside it. -/
inductive Instr where
  /-- 00E0 CLS (R150). -/
  | cls
  /-- 00EE RET (R80). -/
  | ret
  /-- 1nnn JP nnn (R81). -/
  | jpNnn (nnn : Imm12)
  /-- 2nnn CALL nnn (R82). -/
  | callNnn (nnn : Imm12)
  /-- 3xnn SE Vx, nn (R83). -/
  | seVxNn (x : Reg) (nn : Byte)
  /-- 4xnn SNE Vx, nn (R84). -/
  | sneVxNn (x : Reg) (nn : Byte)
  /-- 5xy0 SE Vx, Vy (R85). -/
  | seVxVy (x y : Reg)
  /-- 6xnn LD Vx, nn (R100). -/
  | ldVxNn (x : Reg) (nn : Byte)
  /-- 7xnn ADD Vx, nn (R101). -/
  | addVxNn (x : Reg) (nn : Byte)
  /-- 8xy0 LD Vx, Vy (R104). -/
  | ldVxVy (x y : Reg)
  /-- 8xy1 OR Vx, Vy (R105). -/
  | orVxVy (x y : Reg)
  /-- 8xy2 AND Vx, Vy (R106). -/
  | andVxVy (x y : Reg)
  /-- 8xy3 XOR Vx, Vy (R107). -/
  | xorVxVy (x y : Reg)
  /-- 8xy4 ADD Vx, Vy (R108). -/
  | addVxVy (x y : Reg)
  /-- 8xy5 SUB Vx, Vy (R109). -/
  | subVxVy (x y : Reg)
  /-- 8xy6 SHR Vx; `y` is part of the encoding and ignored (R66, R110). -/
  | shrVx (x y : Reg)
  /-- 8xy7 SUBN Vx, Vy (R111). -/
  | subnVxVy (x y : Reg)
  /-- 8xyE SHL Vx; `y` is part of the encoding and ignored (R66, R112). -/
  | shlVx (x y : Reg)
  /-- 9xy0 SNE Vx, Vy (R86). -/
  | sneVxVy (x y : Reg)
  /-- Annn LD I, nnn (R130). -/
  | ldINnn (nnn : Imm12)
  /-- Bnnn JP V0, nnn (R87). -/
  | jpV0Nnn (nnn : Imm12)
  /-- Cxnn RND Vx, nn (R113). -/
  | rndVxNn (x : Reg) (nn : Byte)
  /-- Dxyn DRW Vx, Vy, n (R152). -/
  | drwVxVyN (x y : Reg) (n : Nibble)
  /-- Ex9E SKP Vx (R170). -/
  | skpVx (x : Reg)
  /-- ExA1 SKNP Vx (R171). -/
  | sknpVx (x : Reg)
  /-- Fx07 LD Vx, DT (R172). -/
  | ldVxDt (x : Reg)
  /-- Fx0A LD Vx, K (R174). -/
  | ldVxK (x : Reg)
  /-- Fx15 LD DT, Vx (R175). -/
  | ldDtVx (x : Reg)
  /-- Fx18 LD ST, Vx (R176). -/
  | ldStVx (x : Reg)
  /-- Fx1E ADD I, Vx (R131). -/
  | addIVx (x : Reg)
  /-- Fx29 LD F, Vx (R132). -/
  | ldFVx (x : Reg)
  /-- Fx33 LD B, Vx (R133). -/
  | ldBVx (x : Reg)
  /-- Fx55 LD [I], Vx (R134). -/
  | ldMemVx (x : Reg)
  /-- Fx65 LD Vx, [I] (R135). -/
  | ldVxMem (x : Reg)
  deriving DecidableEq, Repr

/-- What decoding answers: one of the 34 instructions, or the opcode by itself when no row selects it (R62). -/
inductive Decoded where
  | instr (i : Instr)
  | unknown (op : Word)
  deriving DecidableEq, Repr

end Sys2Proof
end

