-- ==== Sys2Proof/WellFormed.lean ====
section
/-!
DEFINITION. What can be ill-formed on this hardware. An `Instr` cannot: each of its fields has exactly its
encoding's width (30_encoding.md R64). A 16-bit word can fail to be an instruction (R66, R68), and a program image can
fail to fit memory (10_state.md R33). Both checks are written from the rules that say what is wrong, apart from the
decoder, which is written from the table of what is right (R65).
-/

namespace Sys2Proof

/-- Outside family 0: the bits that select the operation in family `f`, `n` or `nn`, are ones the map has
(R66, R68). A family that takes its whole low 12 bits as fields has no unknown word. -/
def subOpcodeKnown (f n nn : Nat) : Bool :=
  match f with
  | 0x5 => n == 0
  | 0x8 => n ≤ 7 || n == 0xE
  | 0x9 => n == 0
  | 0xE => nn == 0x9E || nn == 0xA1
  | 0xF => [0x07, 0x0A, 0x15, 0x18, 0x1E, 0x29, 0x33, 0x55, 0x65].contains nn
  | _ => true

/-- The word is one of the 34 instructions: it is none of the encodings that R68 lists as unknown, family by
family. -/
def wordWellFormed (op : Word) : Bool :=
  if op.toNat / 0x1000 = 0 then op == 0x00E0 || op == 0x00EE
  else subOpcodeKnown (op.toNat / 0x1000) (op.toNat % 0x10) (op.toNat % 0x100)

/-- The image fits above `LOAD_BASE`: at most 4096 - 0x200 = 3584 bytes (R33, D21). -/
def imageWellFormed (data : List Byte) : Bool :=
  data.length ≤ 3584

end Sys2Proof
end

