-- ==== Sys2Proof/Decode.lean ====
section
/-!
DEFINITION. From words to instructions and back (30_encoding.md R61 to R71). `decode` is total (R62): a word
that no row of the table selects is answered by name, as `unknown`. `encode` builds an instruction's word from the same
field positions (R64, R71). `opcodeTable` is R65's table itself, mask and match.
-/

namespace Sys2Proof

/-- `F`, the family nibble, `op[15:12]` (R64). -/
def fieldF (op : Word) : Nibble := op.extractLsb' 12 4

/-- `x`, the first register number, `op[11:8]` (R64). -/
def fieldX (op : Word) : Reg := (op.extractLsb' 8 4).toFin

/-- `y`, the second register number, `op[7:4]` (R64). -/
def fieldY (op : Word) : Reg := (op.extractLsb' 4 4).toFin

/-- `n`, `op[3:0]` (R64). -/
def fieldN (op : Word) : Nibble := op.extractLsb' 0 4

/-- `nn`, `op[7:0]` (R64). -/
def fieldNn (op : Word) : Byte := op.extractLsb' 0 8

/-- `nnn`, `op[11:0]` (R64). -/
def fieldNnn (op : Word) : Imm12 := op.extractLsb' 0 12

/-- Family 0: 00E0 and 00EE only, all 16 bits matched (R66, R68). -/
def decode0 (op : Word) : Decoded :=
  if op = 0x00E0 then .instr .cls
  else if op = 0x00EE then .instr .ret
  else .unknown op

/-- Families 5 and 9: `n` must be 0 (R66). -/
def decodeN0 (op : Word) (i : Instr) : Decoded :=
  if fieldN op = 0 then .instr i else .unknown op

/-- Family 8: `n` selects the operation (R65 rows 10 to 18; the nibbles are 93_implementation_defined.md G2, log 6). -/
def decode8 (op : Word) : Decoded :=
  let x := fieldX op
  let y := fieldY op
  match fieldN op with
  | 0x0 => .instr (.ldVxVy x y)
  | 0x1 => .instr (.orVxVy x y)
  | 0x2 => .instr (.andVxVy x y)
  | 0x3 => .instr (.xorVxVy x y)
  | 0x4 => .instr (.addVxVy x y)
  | 0x5 => .instr (.subVxVy x y)
  | 0x6 => .instr (.shrVx x y)
  | 0x7 => .instr (.subnVxVy x y)
  | 0xE => .instr (.shlVx x y)
  | _ => .unknown op

/-- Family E: all of `nn` selects the operation (R65 rows 24 and 25; R66). -/
def decodeE (op : Word) : Decoded :=
  let x := fieldX op
  match fieldNn op with
  | 0x9E => .instr (.skpVx x)
  | 0xA1 => .instr (.sknpVx x)
  | _ => .unknown op

/-- Family F: all of `nn` selects the operation (R65 rows 26 to 34; R66). -/
def decodeF (op : Word) : Decoded :=
  let x := fieldX op
  match fieldNn op with
  | 0x07 => .instr (.ldVxDt x)
  | 0x0A => .instr (.ldVxK x)
  | 0x15 => .instr (.ldDtVx x)
  | 0x18 => .instr (.ldStVx x)
  | 0x1E => .instr (.addIVx x)
  | 0x29 => .instr (.ldFVx x)
  | 0x33 => .instr (.ldBVx x)
  | 0x55 => .instr (.ldMemVx x)
  | 0x65 => .instr (.ldVxMem x)
  | _ => .unknown op

/-- `Decode(op)`: the instruction a 16-bit word stands for, or `unknown op` (R62, R65, R68). It reads no state. -/
def decode (op : Word) : Decoded :=
  let x := fieldX op
  let y := fieldY op
  let nn := fieldNn op
  let nnn := fieldNnn op
  match fieldF op with
  | 0x0 => decode0 op
  | 0x1 => .instr (.jpNnn nnn)
  | 0x2 => .instr (.callNnn nnn)
  | 0x3 => .instr (.seVxNn x nn)
  | 0x4 => .instr (.sneVxNn x nn)
  | 0x5 => decodeN0 op (.seVxVy x y)
  | 0x6 => .instr (.ldVxNn x nn)
  | 0x7 => .instr (.addVxNn x nn)
  | 0x8 => decode8 op
  | 0x9 => decodeN0 op (.sneVxVy x y)
  | 0xA => .instr (.ldINnn nnn)
  | 0xB => .instr (.jpV0Nnn nnn)
  | 0xC => .instr (.rndVxNn x nn)
  | 0xD => .instr (.drwVxVyN x y (fieldN op))
  | 0xE => decodeE op
  | _ => decodeF op

/-- Two bytes as they lie in memory, the one at the lower address first: big-endian (20_memory.md R43). -/
def wordOfBytes (hi lo : Byte) : Word := hi ++ lo

/-- Decoding of the two bytes of an instruction, as fetch reads them (R61, R62). -/
def decodeBytes (hi lo : Byte) : Decoded := decode (wordOfBytes hi lo)

/-- Format `Fnnn` (R64). -/
def formNnn (f : Nibble) (nnn : Imm12) : Word := f ++ nnn

/-- Format `Fxnn`, and `Fx__` where `nn` is a sub-opcode (R64, R66). -/
def formXnn (f : Nibble) (x : Reg) (nn : Byte) : Word := f ++ (BitVec.ofFin x : Nibble) ++ nn

/-- Format `Fxyn` (R64). -/
def formXyn (f : Nibble) (x y : Reg) (n : Nibble) : Word :=
  f ++ (BitVec.ofFin x : Nibble) ++ (BitVec.ofFin y : Nibble) ++ n

/-- The word of an instruction: its row's match with the field values inserted (R65, R71). -/
def encode : Instr → Word
  | .cls => 0x00E0
  | .ret => 0x00EE
  | .jpNnn nnn => formNnn 0x1 nnn
  | .callNnn nnn => formNnn 0x2 nnn
  | .seVxNn x nn => formXnn 0x3 x nn
  | .sneVxNn x nn => formXnn 0x4 x nn
  | .seVxVy x y => formXyn 0x5 x y 0x0
  | .ldVxNn x nn => formXnn 0x6 x nn
  | .addVxNn x nn => formXnn 0x7 x nn
  | .ldVxVy x y => formXyn 0x8 x y 0x0
  | .orVxVy x y => formXyn 0x8 x y 0x1
  | .andVxVy x y => formXyn 0x8 x y 0x2
  | .xorVxVy x y => formXyn 0x8 x y 0x3
  | .addVxVy x y => formXyn 0x8 x y 0x4
  | .subVxVy x y => formXyn 0x8 x y 0x5
  | .shrVx x y => formXyn 0x8 x y 0x6
  | .subnVxVy x y => formXyn 0x8 x y 0x7
  | .shlVx x y => formXyn 0x8 x y 0xE
  | .sneVxVy x y => formXyn 0x9 x y 0x0
  | .ldINnn nnn => formNnn 0xA nnn
  | .jpV0Nnn nnn => formNnn 0xB nnn
  | .rndVxNn x nn => formXnn 0xC x nn
  | .drwVxVyN x y n => formXyn 0xD x y n
  | .skpVx x => formXnn 0xE x 0x9E
  | .sknpVx x => formXnn 0xE x 0xA1
  | .ldVxDt x => formXnn 0xF x 0x07
  | .ldVxK x => formXnn 0xF x 0x0A
  | .ldDtVx x => formXnn 0xF x 0x15
  | .ldStVx x => formXnn 0xF x 0x18
  | .addIVx x => formXnn 0xF x 0x1E
  | .ldFVx x => formXnn 0xF x 0x29
  | .ldBVx x => formXnn 0xF x 0x33
  | .ldMemVx x => formXnn 0xF x 0x55
  | .ldVxMem x => formXnn 0xF x 0x65

/-- The byte at the instruction's own address: bits 15:8 (R43). -/
def highByte (op : Word) : Byte := op.extractLsb' 8 8

/-- The byte at the next address: bits 7:0 (R43). -/
def lowByte (op : Word) : Byte := op.extractLsb' 0 8

/-- The instruction the decoder reads from a word that the opcode table numbers `w`: its bits laid out as memory
holds them, high byte first. Bits above `nbits` are 0, and no instruction has more than 16 bits (R63). -/
def decodeTableWord (nbits w : Nat) : Option Instr :=
  let op : Word := BitVec.ofNat 16 (w % 2 ^ nbits)
  match decodeBytes (highByte op) (lowByte op) with
  | .instr i => some i
  | .unknown _ => none

/-- One row of the opcode map: a word is the row's when `op &&& mask = value` (R65). -/
structure Row where
  mnemonic : String
  mask : Word
  value : Word
  deriving DecidableEq, Repr

/-- The row selects the word (R65). -/
def Row.selects (r : Row) (op : Word) : Bool := op &&& r.mask == r.value

/-- R65's opcode map, rows 1 to 34, under the mnemonics of spec/opcode_table.json. -/
def opcodeTable : List Row :=
  [⟨"CLS", 0xFFFF, 0x00E0⟩,
   ⟨"RET", 0xFFFF, 0x00EE⟩,
   ⟨"JP_nnn", 0xF000, 0x1000⟩,
   ⟨"CALL_nnn", 0xF000, 0x2000⟩,
   ⟨"SE_Vx__nn", 0xF000, 0x3000⟩,
   ⟨"SNE_Vx__nn", 0xF000, 0x4000⟩,
   ⟨"SE_Vx__Vy", 0xF00F, 0x5000⟩,
   ⟨"LD_Vx__nn", 0xF000, 0x6000⟩,
   ⟨"ADD_Vx__nn", 0xF000, 0x7000⟩] ++
  [⟨"LD_Vx__Vy", 0xF00F, 0x8000⟩,
   ⟨"OR_Vx__Vy", 0xF00F, 0x8001⟩,
   ⟨"AND_Vx__Vy", 0xF00F, 0x8002⟩,
   ⟨"XOR_Vx__Vy", 0xF00F, 0x8003⟩,
   ⟨"ADD_Vx__Vy", 0xF00F, 0x8004⟩,
   ⟨"SUB_Vx__Vy", 0xF00F, 0x8005⟩,
   ⟨"SHR_Vx____Vy", 0xF00F, 0x8006⟩,
   ⟨"SUBN_Vx__Vy", 0xF00F, 0x8007⟩,
   ⟨"SHL_Vx____Vy", 0xF00F, 0x800E⟩] ++
  [⟨"SNE_Vx__Vy", 0xF00F, 0x9000⟩,
   ⟨"LD_I__nnn", 0xF000, 0xA000⟩,
   ⟨"JP_V0__nnn", 0xF000, 0xB000⟩,
   ⟨"RND_Vx__nn", 0xF000, 0xC000⟩,
   ⟨"DRW_Vx__Vy__n", 0xF000, 0xD000⟩,
   ⟨"SKP_Vx", 0xF0FF, 0xE09E⟩,
   ⟨"SKNP_Vx", 0xF0FF, 0xE0A1⟩] ++
  [⟨"LD_Vx__DT", 0xF0FF, 0xF007⟩,
   ⟨"LD_Vx__K", 0xF0FF, 0xF00A⟩,
   ⟨"LD_DT__Vx", 0xF0FF, 0xF015⟩,
   ⟨"LD_ST__Vx", 0xF0FF, 0xF018⟩,
   ⟨"ADD_I__Vx", 0xF0FF, 0xF01E⟩,
   ⟨"LD_F__Vx", 0xF0FF, 0xF029⟩,
   ⟨"LD_B__Vx", 0xF0FF, 0xF033⟩,
   ⟨"LD__I___Vx", 0xF0FF, 0xF055⟩,
   ⟨"LD_Vx___I", 0xF0FF, 0xF065⟩]

/-- The number R65 gives an instruction's row, counted from 1. -/
def rowNumber : Instr → Nat
  | .cls => 1
  | .ret => 2
  | .jpNnn _ => 3
  | .callNnn _ => 4
  | .seVxNn _ _ => 5
  | .sneVxNn _ _ => 6
  | .seVxVy _ _ => 7
  | .ldVxNn _ _ => 8
  | .addVxNn _ _ => 9
  | .ldVxVy _ _ => 10
  | .orVxVy _ _ => 11
  | .andVxVy _ _ => 12
  | .xorVxVy _ _ => 13
  | .addVxVy _ _ => 14
  | .subVxVy _ _ => 15
  | .shrVx _ _ => 16
  | .subnVxVy _ _ => 17
  | .shlVx _ _ => 18
  | .sneVxVy _ _ => 19
  | .ldINnn _ => 20
  | .jpV0Nnn _ => 21
  | .rndVxNn _ _ => 22
  | .drwVxVyN _ _ _ => 23
  | .skpVx _ => 24
  | .sknpVx _ => 25
  | .ldVxDt _ => 26
  | .ldVxK _ => 27
  | .ldDtVx _ => 28
  | .ldStVx _ => 29
  | .addIVx _ => 30
  | .ldFVx _ => 31
  | .ldBVx _ => 32
  | .ldMemVx _ => 33
  | .ldVxMem _ => 34

end Sys2Proof
end

