-- ==== Sys2Proof/Machine/State.lean ====
section
/-!
DEFINITION. The machine's state as plain data, the reasons it can stop, and the state after reset
(10_state.md R10 to R26; 60_exceptions.md R200 to R203; 70_reset_and_hazards.md R230).
-/

namespace Sys2Proof.Machine

/-- The six fault codes, in the order of their numbers (60_exceptions.md R201). -/
inductive FaultCode where
  /-- 1: a fetch whose second byte is outside memory. -/
  | pcOutOfRange
  /-- 2: 2nnn with a full stack. -/
  | stackOverflow
  /-- 3: 00EE with an empty stack. -/
  | stackUnderflow
  /-- 4: a memory access through `I` above 0xFFF. -/
  | indexOutOfRange
  /-- 5: Ex9E or ExA1 with a key number above 0xF. -/
  | keyIndexOutOfRange
  /-- 6: Fx29 with a digit above 0xF. -/
  | fontDigitOutOfRange
  deriving DecidableEq, Repr

/-- Memory as the bytes that differ from what an unlisted address reads as, addresses rising (20_memory.md R40;
the form is `Memory.wf` of Machine/Memory.lean). -/
abbrev Memory := List Host.Cell

/-- The frame buffer: 32 rows, top to bottom, of 64 pixels, left to right (10_state.md R22). -/
abbrev FrameBuffer := Vector (Vector Bool 64) 32

/-- Everything the spec gives the machine, under the spec's names (10_state.md R26), and `draws`. -/
structure State where
  /-- The 4096 bytes (R40). -/
  mem : Memory
  /-- V0 to VF (R10). -/
  V : Vector Byte 16
  /-- The index register (R16). -/
  I : Word
  /-- The program counter: the address of the instruction's first byte (R13). -/
  PC : Word
  /-- The return stack (R17). -/
  stack : Vector Word 16
  /-- The number of occupied stack slots, 0 to 16 (R17). -/
  SP : Fin 17
  /-- The delay timer (R19). -/
  DT : Byte
  /-- The sound timer (R20). -/
  ST : Byte
  /-- The key flags, written by the host alone (R21). -/
  key : Vector Bool 16
  /-- The frame buffer (R22). -/
  fb : FrameBuffer
  /-- None, or the fault that stopped the core (R23). -/
  fault : Option FaultCode
  /-- THE MODEL'S OWN: how many random bytes Cxnn has drawn; the next draw is `Config.freeRand draws` (log 1). -/
  draws : Nat
  deriving DecidableEq, Repr

/-- Why a step has no next state. -/
inductive Fault where
  /-- Raised by `step` on a core whose `fault` is already set: it takes no step until reset (60_exceptions.md R203;
  93_implementation_defined.md U14 "stuck"). Safe: no next state is claimed (log 3). -/
  | stopped (code : FaultCode)
  deriving DecidableEq, Repr

/-- Why an action is turned away. -/
inductive Refusal where
  /-- Raised by `exec` on an instruction that has no meaning yet. No arm raises it in this model. Safe. -/
  | notModelled (mnemonic : String)
  /-- Raised by the program-load port on an image of more than 3584 bytes, memory unchanged (10_state.md R33).
  Safe: it is what the spec says. -/
  | imageTooLong (length : Nat)
  deriving DecidableEq, Repr

/-- What a meaning, a cycle or a host action answers. -/
abbrev Result := Host.Outcome State Fault Refusal

/-- Reset, as the spec says: font in low memory (an unlisted byte reads as its reset contents), `PC` at the load
base, everything else zero (70_reset_and_hazards.md R230; 10_state.md R26; 90_conflicts.md C2). `draws` is the model's own
field; its 0 is a DESIGN CHOICE (log 2). -/
def State.reset : State where
  mem := []
  V := Vector.replicate 16 0
  I := 0
  PC := 0x200
  stack := Vector.replicate 16 0
  SP := 0
  DT := 0
  ST := 0
  key := Vector.replicate 16 false
  fb := Vector.replicate 32 (Vector.replicate 64 false)
  fault := none
  draws := 0

end Sys2Proof.Machine
end

