-- ==== Sys2Proof/Machine/Memory.lean ====
section
/-!
DEFINITION. Memory: 4096 bytes in one canonical list, read and written one byte at a time
(20_memory.md R40 to R52). Every multi-byte access is a sequence of these (R46).
-/

namespace Sys2Proof.Machine

/-- What an address holds after reset, and so what an unlisted address reads as: `FONT[a]` below 0x050, else 0
(70_reset_and_hazards.md R230; 20_memory.md R44, R45, R49). -/
def resetByte (a : Nat) : Byte := Config.font.getD a 0

/-- The canonical form: addresses strictly rising and inside memory, and no entry equal to what its address reads as
unlisted. Equal memories are then equal lists. -/
abbrev Memory.wf (m : Memory) : Prop :=
  m.Pairwise (fun c d => c.1 < d.1) ∧ ∀ c ∈ m, c.1 ≤ 0xFFF ∧ c.2 ≠ resetByte c.1

/-- `MemRead(a, 1)` (00_scope.md R5). Total; every access of the core checks its addresses first (R47, R61; log 8). -/
def Memory.read : Memory → Nat → Byte
  | [], a => resetByte a
  | (b, v) :: rest, a => if b = a then v else Memory.read rest a

/-- The list with `a` listed as `v`. -/
def Memory.insert (a : Nat) (v : Byte) : Memory → Memory
  | [] => [(a, v)]
  | (b, w) :: rest =>
    if a < b then (a, v) :: (b, w) :: rest
    else if a = b then (a, v) :: rest
    else (b, w) :: Memory.insert a v rest

/-- The list with `a` unlisted. -/
def Memory.erase (a : Nat) (m : Memory) : Memory := m.filter fun c => c.1 != a

/-- `MemWrite(a, 1, v)` (00_scope.md R5). No address is protected (R50). -/
def Memory.write (m : Memory) (a : Nat) (v : Byte) : Memory :=
  if v = resetByte a then Memory.erase a m else Memory.insert a v m

/-- One-byte writes in order at `a`, `a + 1`, ... (R46, R52). -/
def Memory.writeBytes (m : Memory) (a : Nat) : List Byte → Memory
  | [] => m
  | v :: rest => Memory.writeBytes (m.write a v) (a + 1) rest

/-- One-byte reads in order from `a`, `a + 1`, ..., `a + n - 1` (R46). -/
def Memory.readBytes (m : Memory) (a n : Nat) : List Byte :=
  (List.range n).map fun k => m.read (a + k)

/-- The two bytes at `a`, big-endian (R43). -/
def Memory.readWord (m : Memory) (a : Nat) : Word :=
  wordOfBytes (m.read a) (m.read (a + 1))

end Sys2Proof.Machine
end

