-- ==== Sys2Proof/Machine/Ops.lean ====
section
/-!
DEFINITION. The named operations over registers, stack, timers and memory that the meanings are made of, and
raising a fault.
-/

namespace Sys2Proof.Machine

/-! ## Registers (10_state.md R10, R11) -/

/-- `V[x]`. No register is hardwired (R10). -/
def readV (s : State) (x : Reg) : Byte := s.V[x]

/-- `V[x] <- v`. -/
def writeV (s : State) (x : Reg) (v : Byte) : State :=
  { s with V := s.V.set x v }

/-- A flag as the byte it is in VF: 1 or 0 (R11). -/
def flagByte (b : Bool) : Byte := if b then 1 else 0

/-- `V[x] <- r`, and then `VF <- f`: the flag is written second, so that it is what VF holds where x = F
(30_encoding.md R72). -/
def writeVThenFlag (s : State) (x : Reg) (r : Byte) (f : Bool) : State :=
  writeV (writeV s x r) Reg.flag (flagByte f)

/-! ## The program counter (10_state.md R13; 40_control_flow.md R88) -/

/-- `PC <- PC + 2`. -/
def advance (s : State) : State := { s with PC := s.PC + 2 }

/-- The skip rule: `PC + 4` when the condition holds, else `PC + 2` (R88). -/
def skipIf (c : Bool) (s : State) : State :=
  { s with PC := if c then s.PC + 4 else s.PC + 2 }

/-- `PC <- target`, no increment (R90). -/
def jumpTo (s : State) (target : Word) : State := { s with PC := target }

/-! ## Faults (60_exceptions.md R200 to R204) -/

/-- TAKING A FAULT: `fault <- code`, and every other piece of state as before the cycle (R200). `PC` stays at the
faulting instruction (R202). There is no handler, no vector and no return: only reset clears it (R203). The tick is left
out by the cycle (`endCycle` of Machine/Cycle.lean). -/
def raiseFault (code : FaultCode) (s : State) : State := { s with fault := some code }

/-- `check cond else raise Fault(code)`, before any write (00_scope.md R5, 30_encoding.md R72). `t` is what the
instruction makes of the state where the check holds. -/
def checkElse (cond : Bool) (code : FaultCode) (s t : State) : Result :=
  .next (if cond then t else raiseFault code s)

/-! ## The return stack (10_state.md R17, R18) -/

/-- `stack[SP] <- a ; SP <- SP + 1`, where there is room; none where SP = 16. -/
def push? (s : State) (a : Word) : Option State :=
  if h : s.SP.val < 16 then
    some { s with stack := s.stack.set s.SP.val a, SP := ⟨s.SP.val + 1, by omega⟩ }
  else none

/-- `SP <- SP - 1`, and the value of `stack[SP]`, which the slot keeps (D20); none where SP = 0. -/
def pop? (s : State) : Option (Word × State) :=
  if h : 0 < s.SP.val then
    some (s.stack[s.SP.val - 1]'(by omega), { s with SP := ⟨s.SP.val - 1, by omega⟩ })
  else none

/-! ## Timers (60_exceptions.md R210) -/

/-- One timer's tick: it goes down to 0 and stays there. -/
def tickTimer (t : Byte) : Byte := if t = 0 then 0 else t - 1

/-- `Tick()`: both timers, independently. -/
def tick (s : State) : State := { s with DT := tickTimer s.DT, ST := tickTimer s.ST }

/-! ## Memory (20_memory.md R42, R46) -/

/-- Stores the bytes at `a`, `a + 1`, ... -/
def storeBytes (s : State) (a : Nat) (bytes : List Byte) : State :=
  { s with mem := s.mem.writeBytes a bytes }

/-- The register file with `V[k]` read from `a + k` for k in 0 .. x, the other registers kept
(42_index_memory.md R135). -/
def loadedRegs (s : State) (x : Reg) (a : Nat) : Vector Byte 16 :=
  Vector.ofFn fun k : Fin 16 => if k ≤ x then s.mem.read (a + k.val) else s.V[k]

/-- `V[k] <- MemRead(a + k, 1)` for k in 0 .. x (R135). -/
def loadRegs (s : State) (x : Reg) (a : Nat) : State := { s with V := loadedRegs s x a }

/-! ## The random draw (10_state.md R38; 41_alu.md R113) -/

/-- `RAND` for this execution: the free value the counter picks (D19, log 1). -/
def currentDraw (s : State) : Byte := Config.freeRand s.draws

/-- The draw is used up, so that the next execution takes a fresh one (R113). -/
def nextDraw (s : State) : State := { s with draws := s.draws + 1 }

end Sys2Proof.Machine
end

