-- ==== Sys2Proof/Machine/Operands.lean ====
section
/-!
DEFINITION. How the operand fields and registers become addresses, key numbers, glyph addresses, coordinates and
sprites (30_encoding.md R69; 20_memory.md R44, R47; 43_display.md R151).
-/

namespace Sys2Proof.Machine

/-- `nnn` as a 16-bit address: `zext_16(op[11:0])` (R69). -/
def targetAddr (nnn : Imm12) : Word := nnn.setWidth 16

/-- The target of Bnnn: `(nnn + V[0]) & 0xFFF` (40_control_flow.md R87). -/
def offsetTarget (nnn : Imm12) (v0 : Byte) : Word :=
  (targetAddr nnn + v0.setWidth 16) &&& 0xFFF

/-- The k-th byte address through `I`: the unbounded sum, never reduced (R47). -/
def indexAddr (s : State) (k : Nat) : Nat := s.I.toNat + k

/-- The highest address of an access through `I` is in memory, `I + last <= 0xFFF` (R47). -/
def indexInRange (s : State) (last : Nat) : Bool := indexAddr s last ≤ 0xFFF

/-- The register names one of 16 things: a key (44_timers_keypad.md R170) or a font digit (42_index_memory.md R132). -/
def inSixteen (v : Byte) : Bool := v.toNat ≤ 0xF

/-- `key[k]` for a key number held in a register; read after `inSixteen` has been checked (R170). -/
def keyDown (s : State) (v : Byte) : Bool := s.key[Fin.ofNat 16 v.toNat]

/-- `min { k | key[k] }`, the lowest-numbered pressed key, if any (44_timers_keypad.md R174). -/
def lowestKey? (s : State) : Option (Fin 16) :=
  (List.finRange 16).find? fun k => s.key[k]

/-- The address of a digit's glyph, `FONT_BASE + 5 * d` (42_index_memory.md R132; 20_memory.md R44). -/
def glyphAddr (v : Byte) : Word :=
  BitVec.ofNat 16 (Config.fontBase + Config.fontGlyphBytes * v.toNat)

/-- The three decimal digits of a byte, hundreds first (42_index_memory.md R133). -/
def bcdDigits (v : Byte) : List Byte :=
  [BitVec.ofNat 8 (v.toNat / 100), BitVec.ofNat 8 (v.toNat / 10 % 10), BitVec.ofNat 8 (v.toNat % 10)]

/-- V0 to Vx, in order: x + 1 bytes (42_index_memory.md R134). -/
def regsUpTo (s : State) (x : Reg) : List Byte := (s.V.toList).take (x.val + 1)

/-- The sprite: the n bytes in memory from `I`, row 0 first (43_display.md R151). -/
def spriteRows (s : State) (n : Nat) : List Byte := s.mem.readBytes s.I.toNat n

/-- The bit of a row byte that is column b: most significant bit first, bit 7 - b (43_display.md R151). -/
def rowBit (row : Byte) (b : Nat) : Bool := row.getLsbD (7 - b)

end Sys2Proof.Machine
end

