-- ==== Sys2Proof/Machine/Flags.lean ====
section
/-!
DEFINITION. The flags that instructions leave in VF, each computed from the unbounded integer operands
(10_state.md R11; 41_alu.md R102, R103; 42_index_memory.md R131). DRW's collision flag is part of the drawing
(Machine/Display.lean).
-/

namespace Sys2Proof.Machine

/-- Carry: `a + b > 255` (R102, R108). -/
def carryFlag (a b : Byte) : Bool := a.toNat + b.toNat > 255

/-- No borrow: `a >= b`, minuend first (R102, R109, R111). -/
def noBorrowFlag (a b : Byte) : Bool := a.toNat ≥ b.toNat

/-- The bit a right shift by one pushes out: bit 0 (R103, R110). -/
def shiftedOutRight (a : Byte) : Bool := a.getLsbD 0

/-- The bit a left shift by one pushes out: bit 7 (R103, R112; 90_conflicts.md C4). -/
def shiftedOutLeft (a : Byte) : Bool := a.getLsbD 7

/-- The result passes the last memory address: `I + Vx > 0xFFF` (R131, D13). -/
def indexOverflowFlag (i : Word) (v : Byte) : Bool := i.toNat + v.toNat > 0xFFF

end Sys2Proof.Machine
end

