-- ==== Sys2Proof/Machine/Alu.lean ====
section
/-!
DEFINITION. Register loads, arithmetic and logic, and the random byte (41_alu.md R100 to R114). Every one ends with
`PC <- PC + 2`, reads its operands before it writes, and wraps modulo 256 (R102, R114).
-/

namespace Sys2Proof.Machine

/-- `V[x] <- r ; PC <- PC + 2`. -/
def setReg (x : Reg) (r : Byte) (s : State) : Result := .next (advance (writeV s x r))

/-- `V[x] <- r ; VF <- f ; PC <- PC + 2`, the flag last (R72, R114). -/
def setRegFlag (x : Reg) (r : Byte) (f : Bool) (s : State) : Result :=
  .next (advance (writeVThenFlag s x r f))

/-- 6xnn LD Vx, nn (R100). -/
def execLdVxNn (x : Reg) (nn : Byte) (s : State) : Result := setReg x nn s

/-- 7xnn ADD Vx, nn: wraps, no flag (R101). -/
def execAddVxNn (x : Reg) (nn : Byte) (s : State) : Result := setReg x (readV s x + nn) s

/-- 8xy0 LD Vx, Vy (R104). -/
def execLdVxVy (x y : Reg) (s : State) : Result := setReg x (readV s y) s

/-- 8xy1 OR Vx, Vy: no flag (R105, D9). -/
def execOrVxVy (x y : Reg) (s : State) : Result := setReg x (readV s x ||| readV s y) s

/-- 8xy2 AND Vx, Vy: no flag (R106, D9). -/
def execAndVxVy (x y : Reg) (s : State) : Result := setReg x (readV s x &&& readV s y) s

/-- 8xy3 XOR Vx, Vy: no flag (R107, D9). -/
def execXorVxVy (x y : Reg) (s : State) : Result := setReg x (readV s x ^^^ readV s y) s

/-- 8xy4 ADD Vx, Vy: VF is the carry (R108). -/
def execAddVxVy (x y : Reg) (s : State) : Result :=
  let a := readV s x
  let b := readV s y
  setRegFlag x (a + b) (carryFlag a b) s

/-- 8xy5 SUB Vx, Vy: VF is 1 when no borrow occurred (R109). -/
def execSubVxVy (x y : Reg) (s : State) : Result :=
  let a := readV s x
  let b := readV s y
  setRegFlag x (a - b) (noBorrowFlag a b) s

/-- 8xy6 SHR Vx: in place, `y` ignored (R110, D10). -/
def execShrVx (x _y : Reg) (s : State) : Result :=
  let a := readV s x
  setRegFlag x (a >>> 1) (shiftedOutRight a) s

/-- 8xy7 SUBN Vx, Vy: `Vy` is the minuend (R111, D12). -/
def execSubnVxVy (x y : Reg) (s : State) : Result :=
  let a := readV s x
  let b := readV s y
  setRegFlag x (b - a) (noBorrowFlag b a) s

/-- 8xyE SHL Vx: in place, `y` ignored (R112, D10). -/
def execShlVx (x _y : Reg) (s : State) : Result :=
  let a := readV s x
  setRegFlag x (a <<< 1) (shiftedOutLeft a) s

/-- Cxnn RND Vx, nn: a fresh draw under the mask (R113). -/
def execRndVxNn (x : Reg) (nn : Byte) (s : State) : Result :=
  setReg x (currentDraw s &&& nn) (nextDraw s)

end Sys2Proof.Machine
end

