-- ==== Sys2Proof/Machine/Control.lean ====
section
/-!
DEFINITION. Control flow (40_control_flow.md R80 to R90). Each meaning states `PC`'s final value itself (00_scope.md
R6).
-/

namespace Sys2Proof.Machine

/-- 00EE RET: the popped value is the resume address, not incremented further (R80). -/
def execRet (s : State) : Result :=
  match pop? s with
  | some (a, t) => .next (jumpTo t a)
  | none => .next (raiseFault .stackUnderflow s)

/-- 1nnn JP nnn (R81). -/
def execJpNnn (nnn : Imm12) (s : State) : Result := .next (jumpTo s (targetAddr nnn))

/-- 2nnn CALL nnn: pushes the address after the call (R82, 90_conflicts.md C1). -/
def execCallNnn (nnn : Imm12) (s : State) : Result :=
  match push? s (s.PC + 2) with
  | some t => .next (jumpTo t (targetAddr nnn))
  | none => .next (raiseFault .stackOverflow s)

/-- 3xnn SE Vx, nn (R83). -/
def execSeVxNn (x : Reg) (nn : Byte) (s : State) : Result := .next (skipIf (readV s x == nn) s)

/-- 4xnn SNE Vx, nn (R84). -/
def execSneVxNn (x : Reg) (nn : Byte) (s : State) : Result := .next (skipIf (readV s x != nn) s)

/-- 5xy0 SE Vx, Vy (R85). -/
def execSeVxVy (x y : Reg) (s : State) : Result := .next (skipIf (readV s x == readV s y) s)

/-- 9xy0 SNE Vx, Vy (R86). -/
def execSneVxVy (x y : Reg) (s : State) : Result := .next (skipIf (readV s x != readV s y) s)

/-- Bnnn JP V0, nnn: always V0, masked to 12 bits (R87). -/
def execJpV0Nnn (nnn : Imm12) (s : State) : Result := .next (jumpTo s (offsetTarget nnn (readV s 0)))

end Sys2Proof.Machine
end

