-- ==== Sys2Proof/Machine/Display.lean ====
section
/-!
DEFINITION. The frame buffer's instructions (43_display.md R150 to R154): clear, and the XOR sprite draw, written
as the spec's own loops over rows and columns.
-/

namespace Sys2Proof.Machine

/-- `fb[y][x]` (10_state.md R22). -/
def FrameBuffer.pixel (fb : FrameBuffer) (y : Fin 32) (x : Fin 64) : Bool := fb[y][x]

/-- The frame buffer with one pixel set to `b`. -/
def FrameBuffer.setPixel (fb : FrameBuffer) (y : Fin 32) (x : Fin 64) (b : Bool) : FrameBuffer :=
  fb.set y (fb[y].set x b)

/-- All pixels off (R150). -/
def FrameBuffer.clear : FrameBuffer := Vector.replicate 32 (Vector.replicate 64 false)

/-- A draw in progress: the frame buffer, and whether any pixel has gone from on to off (R152). -/
structure Drawing where
  fb : FrameBuffer
  collision : Bool
  deriving DecidableEq, Repr

/-- One 1 bit of the sprite: an on pixel is a collision, and the pixel is toggled (R152). -/
def Drawing.toggle (d : Drawing) (py : Fin 32) (px : Fin 64) : Drawing where
  fb := d.fb.setPixel py px (!(d.fb.pixel py px))
  collision := d.collision || d.fb.pixel py px

/-- The column `b` of a sprite at `ox`, wrapped: `(ox + b) mod 64` (R152, R153). -/
def spriteColumn (ox b : Nat) : Fin 64 := Fin.ofNat 64 (ox + b)

/-- The row `r` of a sprite at `oy`, wrapped: `(oy + r) mod 32` (R152, R153). -/
def spriteLine (oy r : Nat) : Fin 32 := Fin.ofNat 32 (oy + r)

/-- The inner loop, `for b in 0 .. 7`: a 0 bit leaves its pixel alone and never collides (R151, R152). -/
def Drawing.row (d : Drawing) (ox oy r : Nat) (byte : Byte) : Drawing :=
  (List.range 8).foldl
    (fun d b => if rowBit byte b then d.toggle (spriteLine oy r) (spriteColumn ox b) else d) d

/-- The outer loop, `for r in 0 .. n-1`, over the rows that are left, the first of them row `r`. -/
def Drawing.rows (d : Drawing) (ox oy : Nat) : (r : Nat) → List Byte → Drawing
  | _, [] => d
  | r, byte :: rest => (d.row ox oy r byte).rows ox oy (r + 1) rest

/-- 00E0 CLS (R150). -/
def execCls (s : State) : Result := .next (advance { s with fb := FrameBuffer.clear })

/-- The draw itself: coordinates from the old registers, reduced once at the start; VF ends as the collision flag
(R152, D17). -/
def drawSprite (x y : Reg) (n : Nat) (s : State) : State :=
  let ox := (readV s x).toNat % 64
  let oy := (readV s y).toNat % 32
  let d := Drawing.rows ⟨s.fb, false⟩ ox oy 0 (spriteRows s n)
  writeV { s with fb := d.fb } Reg.flag (flagByte d.collision)

/-- Dxyn DRW Vx, Vy, n: with n = 0 no byte is read and no check is made (R152, R47). -/
def execDrwVxVyN (x y : Reg) (n : Nibble) (s : State) : Result :=
  checkElse (n.toNat == 0 || indexInRange s (n.toNat - 1)) .indexOutOfRange s
    (advance (drawSprite x y n.toNat s))

end Sys2Proof.Machine
end

