-- ==== Sys2Proof/Machine/Index.lean ====
section
/-!
DEFINITION. The index register and the memory transfers through it (42_index_memory.md R130 to R136). The bound of
an access is checked, on its highest address, before any write; `I` is left as it was by the transfers (R136).
-/

namespace Sys2Proof.Machine

/-- `I <- a`. -/
def writeI (s : State) (a : Word) : State := { s with I := a }

/-- Annn LD I, nnn (R130). -/
def execLdINnn (nnn : Imm12) (s : State) : Result := .next (advance (writeI s (targetAddr nnn)))

/-- Fx1E ADD I, Vx: modulo 2^16, VF set past 0xFFF and cleared otherwise (R131, D13). -/
def execAddIVx (x : Reg) (s : State) : Result :=
  let v := readV s x
  .next (advance (writeV (writeI s (s.I + v.setWidth 16)) Reg.flag (flagByte (indexOverflowFlag s.I v))))

/-- Fx29 LD F, Vx (R132). -/
def execLdFVx (x : Reg) (s : State) : Result :=
  let d := readV s x
  checkElse (inSixteen d) .fontDigitOutOfRange s (advance (writeI s (glyphAddr d)))

/-- Fx33 LD B, Vx (R133). -/
def execLdBVx (x : Reg) (s : State) : Result :=
  checkElse (indexInRange s 2) .indexOutOfRange s
    (advance (storeBytes s s.I.toNat (bcdDigits (readV s x))))

/-- Fx55 LD [I], Vx (R134). -/
def execLdMemVx (x : Reg) (s : State) : Result :=
  checkElse (indexInRange s x.val) .indexOutOfRange s
    (advance (storeBytes s s.I.toNat (regsUpTo s x)))

/-- Fx65 LD Vx, [I] (R135). -/
def execLdVxMem (x : Reg) (s : State) : Result :=
  checkElse (indexInRange s x.val) .indexOutOfRange s
    (advance (loadRegs s x s.I.toNat))

end Sys2Proof.Machine
end

