-- ==== Sys2Proof/Machine/Keypad.lean ====
section
/-!
DEFINITION. Keypad and timers (44_timers_keypad.md R170 to R177). The tick that follows every instruction is the
cycle's (Machine/Cycle.lean), not the instruction's.
-/

namespace Sys2Proof.Machine

/-- Ex9E SKP Vx (R170). -/
def execSkpVx (x : Reg) (s : State) : Result :=
  let k := readV s x
  checkElse (inSixteen k) .keyIndexOutOfRange s (skipIf (keyDown s k) s)

/-- ExA1 SKNP Vx (R171). -/
def execSknpVx (x : Reg) (s : State) : Result :=
  let k := readV s x
  checkElse (inSixteen k) .keyIndexOutOfRange s (skipIf (!(keyDown s k)) s)

/-- Fx07 LD Vx, DT: the value before this cycle's tick (R172). -/
def execLdVxDt (x : Reg) (s : State) : Result := .next (advance (writeV s x s.DT))

/-- Fx0A LD Vx, K: the lowest pressed key, or no write at all, `PC` included (R174, R177). -/
def execLdVxK (x : Reg) (s : State) : Result :=
  match lowestKey? s with
  | some k => .next (advance (writeV s x (BitVec.ofNat 8 k.val)))
  | none => .next s

/-- Fx15 LD DT, Vx (R175). -/
def execLdDtVx (x : Reg) (s : State) : Result := .next (advance { s with DT := readV s x })

/-- Fx18 LD ST, Vx (R176). -/
def execLdStVx (x : Reg) (s : State) : Result := .next (advance { s with ST := readV s x })

end Sys2Proof.Machine
end

