-- ==== Sys2Proof/Machine/Cycle.lean ====
section
/-!
DEFINITION. One activation of `cycle` (30_encoding.md R60): the fault check, the fetch check, fetch, decode, execute
and the tick; and the cycle of an unknown opcode (R67).
-/

namespace Sys2Proof.Machine

/-- Both bytes of the fetch are in memory: `PC <= 0xFFE` (R61). -/
def fetchInRange (s : State) : Bool := s.PC.toNat ≤ 0xFFE

/-- `op`: the two bytes at `PC`, big-endian, read afresh on every cycle (R61; 20_memory.md R43, R54). -/
def fetchWord (s : State) : Word := s.mem.readWord s.PC.toNat

/-- The event an unknown opcode emits on `report_out` (10_state.md R36; 60_exceptions.md R206). -/
structure Report where
  pc : Word
  op : Word
  deriving DecidableEq, Repr

/-- `Unknown(op)`: the report, and `PC <- PC + 2`; nothing else is written (R67). -/
def execUnknown (op : Word) (s : State) : Report × State := (⟨s.PC, op⟩, advance s)

/-- The end of a cycle: the tick, unless the instruction raised a fault (60_exceptions.md R200, R210). -/
def endCycle (s : State) : State := if s.fault.isNone then tick s else s

/-- The end of a cycle whose instruction answered `r`. -/
def endResult : Result → Result
  | .next t => .next (endCycle t)
  | .fault f => .fault f
  | .refused f => .refused f

/-- The cycle of a core that is not stopped (R60, R61, R67). -/
def runCycle (s : State) : Result :=
  if fetchInRange s then
    match decode (fetchWord s) with
    | .instr i => endResult (exec i s)
    | .unknown op => .next (endCycle (execUnknown op s).2)
  else .next (raiseFault .pcOutOfRange s)

/-- `Cycle()`: a faulted core takes no step (60_exceptions.md R203; log 3). -/
def cycle (s : State) : Result :=
  match s.fault with
  | some code => .fault (.stopped code)
  | none => runCycle s

end Sys2Proof.Machine
end

