-- ==== Sys2Proof/Machine/Ports.lean ====
section
/-!
DEFINITION. The core's ports (10_state.md R30 to R39): what the host does between cycles, and what it reads. No
output has state of its own; each is read off the state (R24, R34 to R37). Logs 4 and 9.
-/

namespace Sys2Proof.Machine

/-! ## Inputs, between cycles only (R39) -/

/-- `key_in`: the 16 flags as the host sets them (R31). -/
def setKeys (keys : Vector Bool 16) (s : State) : State := { s with key := keys }

/-- `load_data`, `load_len`: the bytes verbatim from `LOAD_BASE`; an image that does not fit is refused whole (R33). -/
def loadProgram (data : List Byte) (s : State) : Result :=
  if imageWellFormed data then .next (storeBytes s Config.loadBase data)
  else .refused (.imageTooLong data.length)

/-- `reset`: every piece of state at its reset value, in or out of a fault (R37; 70_reset_and_hazards.md R230, R232).
The model's own counter of draws runs on, so that no draw is used twice (log 2). -/
def resetPort (s : State) : State := { State.reset with draws := s.draws }

/-! ## Outputs (R34 to R37; 60_exceptions.md R202) -/

/-- `fb_out`, flat, pixel (y, x) at index y * 64 + x (R22, R34, D18). -/
def fbOut (s : State) : Vector Bool (32 * 64) := s.fb.flatten

/-- `sound_active` (R35). -/
def soundActive (s : State) : Bool := s.ST != 0

/-- `dt_out` (R35). -/
def dtOut (s : State) : Byte := s.DT

/-- `st_out` (R35). -/
def stOut (s : State) : Byte := s.ST

/-- `report_out` of the cycle that starts in `s`: one event when it executes an unknown opcode, else none (R36;
60_exceptions.md R206). -/
def reportOut (s : State) : Option Report :=
  if s.fault.isNone && fetchInRange s then
    match decode (fetchWord s) with
    | .instr _ => none
    | .unknown op => some (execUnknown op s).1
  else none

/-- The number of a fault code (60_exceptions.md R201). -/
def FaultCode.number : FaultCode → Nat
  | .pcOutOfRange => 1
  | .stackOverflow => 2
  | .stackUnderflow => 3
  | .indexOutOfRange => 4
  | .keyIndexOutOfRange => 5
  | .fontDigitOutOfRange => 6

/-- What a fault presents on `fault_out`; `op` is absent where none was fetched (60_exceptions.md R202). -/
structure FaultRecord where
  code : FaultCode
  pc : Word
  op : Option Word
  deriving DecidableEq, Repr

/-- `fault_out` (R37; 60_exceptions.md R202). -/
def faultOut (s : State) : Option FaultRecord :=
  s.fault.map fun code =>
    ⟨code, s.PC, if code = .pcOutOfRange then none else some (fetchWord s)⟩

end Sys2Proof.Machine
end

