-- ==== Sys2Proof/Machine/Step.lean ====
section
/-!
DEFINITION. The step, and placing one instruction where the step fetches it. What they do is in Machine/Cycle.lean
and Machine/Memory.lean.
-/

namespace Sys2Proof.Machine

/-- One activation of `cycle` (30_encoding.md R60). -/
def step (s : State) : Host.Outcome State Fault Refusal := cycle s

/-- The address the next fetch reads, and `LOAD_BASE` where `PC` is out of the fetch's range. -/
def State.fetchAddr (s : State) : Nat := if fetchInRange s then s.PC.toNat else Config.loadBase

/-- `s` with the instruction word `w` stored, high byte first, where `step` fetches next; the core not stopped, and
`PC` in range (both hold after reset already). It stands for the program load (log 10). -/
def State.withFetchWord (s : State) (nbits w : Nat) : State :=
  let op : Word := BitVec.ofNat 16 (w % 2 ^ nbits)
  { storeBytes s s.fetchAddr [highByte op, lowByte op] with
    PC := BitVec.ofNat 16 s.fetchAddr
    fault := none }

end Sys2Proof.Machine
end

