-- ==== Sys2Proof/Safety.lean ====
section
/-!
DEFINITION. The terms claims are stated in: a safe state, the invariant of every state a run reaches, what the host
and the core can do to the machine, the end of a run, the causes of faults, and what a frame keeps.
-/

namespace Sys2Proof.Machine

/-! ## Safe states and the invariant -/

/-- No fault has stopped the core (10_state.md R23). -/
abbrev State.running (s : State) : Prop := s.fault = none

/-- What holds of every state a run reaches: memory is in its canonical form (log 8); `PC` is at most 0xFFE + 4 (10_state.md
R13, R15); a return address is at most 0xFFE + 2 (40_control_flow.md R80, 90_conflicts.md C6); and a stopped core was
stopped by its fetch exactly where `PC` is out of the fetch's range (60_exceptions.md R201). -/
abbrev State.Inv (s : State) : Prop :=
  s.mem.wf ∧ s.PC.toNat ≤ 0x1002 ∧ (∀ k : Fin 16, (s.stack[k]).toNat ≤ 0x1000) ∧
    (∀ code ∈ s.fault, code = .pcOutOfRange ↔ 0xFFE < s.PC.toNat)

/-! ## What can happen to the machine (10_state.md R39) -/

/-- One activation of `cycle`, or one of the host's three writes between cycles. -/
inductive Action where
  | cycle
  | keys (keys : Vector Bool 16)
  | load (data : List Byte)
  | reset
  deriving DecidableEq, Repr

/-- What an action makes of a state. -/
def act : Action → State → Result
  | .cycle, s => step s
  | .keys keys, s => .next (setKeys keys s)
  | .load data, s => loadProgram data s
  | .reset, s => .next (resetPort s)

/-- The states some sequence of actions leads to from reset. -/
inductive Reachable : State → Prop where
  | reset : Reachable State.reset
  | act {s t : State} (a : Action) : Reachable s → act a s = .next t → Reachable t

/-! ## What the next cycle runs -/

/-- The next cycle executes `i`: the core is not stopped, the fetch is in memory, and the word there is `i`'s. -/
abbrev Executes (s : State) (i : Instr) : Prop :=
  s.running ∧ s.PC.toNat ≤ 0xFFE ∧ decode (fetchWord s) = .instr i

/-! ## The end of a run (70_reset_and_hazards.md R236, D29) -/

/-- The three ends of a run. -/
inductive RunEnd where
  | faulted (code : FaultCode)
  | selfJump
  | stalledWait
  deriving DecidableEq, Repr

/-- The end the state is at, if it is at one: (a) a fault; (b) a jump to itself at `PC`; (c) a key-wait at `PC` with
no key pressed (R236). -/
def runEnd? (s : State) : Option RunEnd :=
  match s.fault with
  | some code => some (.faulted code)
  | none =>
    if fetchInRange s then
      match decode (fetchWord s) with
      | .instr (.jpNnn nnn) => if targetAddr nnn = s.PC then some .selfJump else none
      | .instr (.ldVxK _) => if s.key.toList.contains true then none else some .stalledWait
      | _ => none
    else none

/-! ## The causes of faults (60_exceptions.md R201) -/

/-- The "cause" and "raised by" columns of R201, of a core that is not stopped. -/
def faultCause : FaultCode → State → Prop
  | .pcOutOfRange, s => 0xFFE < s.PC.toNat
  | .stackOverflow, s => ∃ nnn, Executes s (.callNnn nnn) ∧ s.SP = 16
  | .stackUnderflow, s => Executes s .ret ∧ s.SP = 0
  | .indexOutOfRange, s =>
    (∃ x y n, Executes s (.drwVxVyN x y n) ∧ 0 < n.toNat ∧ 0xFFF < s.I.toNat + n.toNat - 1) ∨
    (∃ x, Executes s (.ldBVx x) ∧ 0xFFF < s.I.toNat + 2) ∨
    (∃ x, (Executes s (.ldMemVx x) ∨ Executes s (.ldVxMem x)) ∧ 0xFFF < s.I.toNat + x.val)
  | .keyIndexOutOfRange, s =>
    ∃ x, (Executes s (.skpVx x) ∨ Executes s (.sknpVx x)) ∧ 0xF < (readV s x).toNat
  | .fontDigitOutOfRange, s => ∃ x, Executes s (.ldFVx x) ∧ 0xF < (readV s x).toNat

/-! ## Frames -/

/-- The parts of the state beside registers, memory and `PC`. -/
inductive Part where
  | index | slots | sp | delay | sound | keys | display | fault | draws
  deriving DecidableEq, Repr

/-- The part is in `t` what it is in `s`. -/
def Part.kept : Part → State → State → Prop
  | .index, s, t => t.I = s.I
  | .slots, s, t => t.stack = s.stack
  | .sp, s, t => t.SP = s.SP
  | .delay, s, t => t.DT = s.DT
  | .sound, s, t => t.ST = s.ST
  | .keys, s, t => t.key = s.key
  | .display, s, t => t.fb = s.fb
  | .fault, s, t => t.fault = s.fault
  | .draws, s, t => t.draws = s.draws

/-- Every part but those named is kept. -/
def PartsKeptBut (ps : List Part) (s t : State) : Prop := ∀ p, p ∉ ps → p.kept s t

/-- Every register but those named is kept. -/
def RegsKeptBut (rs : List Reg) (s t : State) : Prop := ∀ r, r ∉ rs → readV t r = readV s r

/-- Every byte of memory reads as before. -/
def MemKept (s t : State) : Prop := ∀ a, t.mem.read a = s.mem.read a

/-- Every byte of memory but the `len` bytes from `a` reads as before. -/
def MemKeptBut (a len : Nat) (s t : State) : Prop :=
  ∀ b, b < a ∨ a + len ≤ b → t.mem.read b = s.mem.read b

/-- Only the named registers, the named parts and `PC` may differ; nothing is stored. -/
def OnlyWrites (rs : List Reg) (ps : List Part) (s t : State) : Prop :=
  RegsKeptBut rs s t ∧ PartsKeptBut ps s t ∧ MemKept s t

/-! ## Who may write what (10_state.md R11, R25; 20_memory.md R42; 43_display.md R154) -/

/-- The registers an instruction may write: its destination, VF where it defines a flag, V0 to Vx for Fx65. -/
def mayWriteReg (i : Instr) (r : Reg) : Bool :=
  match i with
  | .ldVxNn x _ | .addVxNn x _ | .ldVxVy x _ | .orVxVy x _ | .andVxVy x _ | .xorVxVy x _ | .rndVxNn x _ => r == x
  | .addVxVy x _ | .subVxVy x _ | .shrVx x _ | .subnVxVy x _ | .shlVx x _ => r == x || r == Reg.flag
  | .ldVxDt x | .ldVxK x => r == x
  | .drwVxVyN _ _ _ | .addIVx _ => r == Reg.flag
  | .ldVxMem x => r ≤ x
  | _ => false

/-- The parts an instruction may write by its own effect, where it raises no fault and before the tick. -/
def mayWritePart (i : Instr) : Part → Bool
  | .index => match i with | .ldINnn _ | .addIVx _ | .ldFVx _ => true | _ => false
  | .slots => match i with | .callNnn _ => true | _ => false
  | .sp => match i with | .callNnn _ | .ret => true | _ => false
  | .delay => match i with | .ldDtVx _ => true | _ => false
  | .sound => match i with | .ldStVx _ => true | _ => false
  | .keys => false
  | .display => match i with | .cls | .drwVxVyN _ _ _ => true | _ => false
  | .fault => false
  | .draws => match i with | .rndVxNn _ _ => true | _ => false

/-- The two instructions that store to memory (R42). -/
def mayStore : Instr → Bool
  | .ldBVx _ | .ldMemVx _ => true
  | _ => false

/-- The skip family (40_control_flow.md R88). -/
def isSkip : Instr → Bool
  | .seVxNn _ _ | .sneVxNn _ _ | .seVxVy _ _ | .sneVxVy _ _ | .skpVx _ | .sknpVx _ => true
  | _ => false

/-- The instructions that write a target into `PC` (40_control_flow.md R90). -/
def isTransfer : Instr → Bool
  | .ret | .jpNnn _ | .callNnn _ | .jpV0Nnn _ => true
  | _ => false

/-- The instructions that read the keypad (10_state.md R21). -/
def readsKeys : Instr → Bool
  | .skpVx _ | .sknpVx _ | .ldVxK _ => true
  | _ => false

/-! ## Sprites (43_display.md R151 to R153) -/

/-- A 1 bit of the n-row sprite at `I`, drawn with its origin at the registers' coordinates, falls on the pixel in
row `py`, column `px`: both coordinates wrap (R152, R153). -/
def spriteCovers (s : State) (x y : Reg) (n : Nat) (py : Fin 32) (px : Fin 64) : Prop :=
  ∃ r b : Nat, r < n ∧ b < 8 ∧ (s.mem.read (s.I.toNat + r)).getLsbD (7 - b) = true ∧
    ((readV s x).toNat + b) % 64 = px.val ∧ ((readV s y).toNat + r) % 32 = py.val

end Sys2Proof.Machine
end

