-- ==== Sys2Proof/Certificates/Slice0/Obligations.lean ====
section
/-!
DEFINITION. The statements for the provers, in the terms of Safety.lean. Each says which rule of spec/ it
formalises. A result statement's conclusion is that `exec` answers a next state, for every state and every operand its
clauses admit, with the values the rule gives and the frame.
-/

open Sys2Proof Sys2Proof.Machine

/-! ## Encoding (30_encoding.md R61 to R71) -/

/-- Every instruction, with every operand value, is what its own word decodes to, and what its two bytes decode to
as they lie in memory (R62, R64, R65, R71; 20_memory.md R43). -/
def Obligations.DecodeOfEncodeIsTheInstruction : Prop :=
  ∀ i : Instr, decode (encode i) = .instr i ∧
    decodeBytes (highByte (encode i)) (lowByte (encode i)) = .instr i

/-- The other direction: an instruction's word is the only one that decodes to it, the ignored `y` of the shifts
included, so decoding drops no bit (R63, R64, R66). -/
def Obligations.EncodeOfDecodeIsTheWord : Prop :=
  ∀ (op : Word) (i : Instr), decode op = .instr i → encode i = op

/-- R65: a word is an instruction exactly where a row of the map selects it, and then it is that row's instruction;
no word is selected by two rows. -/
def Obligations.TheRowThatMatchesIsDecoded : Prop :=
  ∀ op : Word,
    (∀ r ∈ opcodeTable, ∀ r' ∈ opcodeTable, op &&& r.mask = r.value → op &&& r'.mask = r'.value → r = r') ∧
    (∀ i, decode op = .instr i →
      ∃ r, opcodeTable[rowNumber i - 1]? = some r ∧ op &&& r.mask = r.value) ∧
    (∀ k r, opcodeTable[k]? = some r → op &&& r.mask = r.value →
      ∃ i, decode op = .instr i ∧ rowNumber i = k + 1) ∧
    (decode op = .unknown op ↔ ∀ r ∈ opcodeTable, op &&& r.mask ≠ r.value)

/-- R68: the unknown words are the listed ones, in each family as many as the rule counts. -/
def Obligations.UnknownWordsAreTheListedOnes : Prop :=
  (∀ op : Word, decode op = .unknown op ↔ wordWellFormed op = false) ∧
  (∀ fc ∈ [(0x0, 4094), (0x5, 3840), (0x8, 1792), (0x9, 3840), (0xE, 4064), (0xF, 3952),
      (0x1, 0), (0x2, 0), (0x3, 0), (0x4, 0), (0x6, 0), (0x7, 0), (0xA, 0), (0xB, 0), (0xC, 0), (0xD, 0)],
    ((List.range 0x1000).filter fun k =>
      decode (BitVec.ofNat 16 (fc.1 * 0x1000 + k)) = .unknown (BitVec.ofNat 16 (fc.1 * 0x1000 + k))).length = fc.2)

/-- Words written out from R65's patterns, at least one for each family, decode to what they stand for. -/
def Obligations.WordsDecodeAsTheMapSays : Prop :=
  [0x00E0, 0x00EE, 0x1234, 0x2300, 0x3342, 0x4300, 0x5120, 0x6A42, 0x7002, 0x8014, 0x81FE, 0x9120, 0xA2F0, 0xB2F8,
    0xC30F, 0xD125, 0xE29E, 0xE2A1, 0xF307, 0xF20A, 0xF015, 0xF018, 0xF11E, 0xF029, 0xF033, 0xF255, 0xF265, 0x0123,
    0x5121].map decode =
  [.instr .cls, .instr .ret, .instr (.jpNnn 0x234), .instr (.callNnn 0x300), .instr (.seVxNn 3 0x42),
    .instr (.sneVxNn 3 0x00), .instr (.seVxVy 1 2), .instr (.ldVxNn 0xA 0x42), .instr (.addVxNn 0 0x02),
    .instr (.addVxVy 0 1), .instr (.shlVx 1 0xF), .instr (.sneVxVy 1 2), .instr (.ldINnn 0x2F0),
    .instr (.jpV0Nnn 0x2F8), .instr (.rndVxNn 3 0x0F), .instr (.drwVxVyN 1 2 5), .instr (.skpVx 2),
    .instr (.sknpVx 2), .instr (.ldVxDt 3), .instr (.ldVxK 2), .instr (.ldDtVx 0), .instr (.ldStVx 0),
    .instr (.addIVx 1), .instr (.ldFVx 0), .instr (.ldBVx 0), .instr (.ldMemVx 2), .instr (.ldVxMem 2),
    .unknown 0x0123, .unknown 0x5121]

/-! ## The cycle (30_encoding.md R60, R61, R67; 60_exceptions.md R200 to R210) -/

/-- A STEP RUNS THE DECODED INSTRUCTION: where the core is not stopped and the two bytes at `PC` decode to `i`, the
step is `exec i`, and then, unless `i` raised a fault, one tick of both timers, saturating at 0 (R60, R61, R210). -/
def Obligations.StepRunsTheFetchedInstruction : Prop :=
  ∀ (s t : State) (i : Instr), s.fault = none → s.PC.toNat ≤ 0xFFE →
    decodeBytes (s.mem.read s.PC.toNat) (s.mem.read (s.PC.toNat + 1)) = .instr i → exec i s = .next t →
    step s = .next (if t.fault = none then
        { t with DT := if t.DT = 0 then 0 else t.DT - 1, ST := if t.ST = 0 then 0 else t.ST - 1 }
      else t)

/-- R67, R36: the cycle of an unknown opcode reports `(PC, op)`, writes `PC + 2` and nothing else, and ticks; no
other cycle reports. -/
def Obligations.UnknownOpcodeIsReportedAndPassedOver : Prop :=
  ∀ s : State, s.fault = none →
    (∀ op, s.PC.toNat ≤ 0xFFE → decode (fetchWord s) = .unknown op →
      ∃ t, step s = .next t ∧ reportOut s = some ⟨s.PC, op⟩ ∧ op = fetchWord s ∧ t.PC = s.PC + 2 ∧
        OnlyWrites [] [.delay, .sound] s t ∧ t.DT.toNat = s.DT.toNat - 1 ∧ t.ST.toNat = s.ST.toNat - 1) ∧
    (∀ r, reportOut s = some r →
      s.PC.toNat ≤ 0xFFE ∧ r.pc = s.PC ∧ r.op = fetchWord s ∧ decode r.op = .unknown r.op)

/-- R61: the fetch joins the bytes at `PC` and `PC + 1` big-endian; where `PC + 1` is outside memory the cycle
raises PC_OUT_OF_RANGE instead, and `PC` is as it was. -/
def Obligations.FetchIsBigEndianAndStaysInMemory : Prop :=
  ∀ s : State, s.fault = none →
    (fetchWord s).toNat =
      (s.mem.read s.PC.toNat).toNat * 256 + (s.mem.read (s.PC.toNat + 1)).toNat ∧
    (0xFFF < s.PC.toNat + 1 → step s = .next { s with fault := some .pcOutOfRange }) ∧
    (s.PC.toNat + 1 ≤ 0xFFF → ∃ t, step s = .next t ∧ t.fault ≠ some .pcOutOfRange)

/-- R203: a faulted core takes no step; no step, key write or program load clears the fault; reset does. -/
def Obligations.FaultedCoreTakesNoStepUntilReset : Prop :=
  ∀ (s : State) (c : FaultCode), s.fault = some c →
    step s = .fault (.stopped c) ∧
    (∀ keys, (setKeys keys s).fault = some c) ∧
    (∀ data t, loadProgram data s = .next t → t.fault = some c) ∧
    (resetPort s).fault = none

/-- R200, R202: a cycle that raises a fault sets `fault` and leaves every other piece of state as it was before the
cycle, the timers included; `fault_out` then presents the code, the instruction's address and the opcode that faulted,
absent for a fetch fault. -/
def Obligations.FaultingCycleChangesOnlyTheFault : Prop :=
  ∀ (s t : State) (c : FaultCode), step s = .next t → t.fault = some c →
    t = { s with fault := some c } ∧
    faultOut t = some ⟨c, s.PC, if c = .pcOutOfRange then none else some (fetchWord s)⟩

/-- R201, R204: a cycle raises a fault exactly where the table of faults says so, and at most one; the codes are
numbered 1 to 6 in the table's order. -/
def Obligations.FaultsAreRaisedExactlyWhereListed : Prop :=
  (∀ (s : State) (c : FaultCode), s.fault = none →
    ((∃ t, step s = .next t ∧ t.fault = some c) ↔ faultCause c s)) ∧
  [FaultCode.pcOutOfRange, .stackOverflow, .stackUnderflow, .indexOutOfRange, .keyIndexOutOfRange,
    .fontDigitOutOfRange].map FaultCode.number = [1, 2, 3, 4, 5, 6]

/-- R210: every cycle that does not fault ticks both timers once, each by itself, saturating at 0: from the value
the cycle began with, or from the one Fx15 or Fx18 wrote. -/
def Obligations.BothTimersTickOncePerCycle : Prop :=
  ∀ s t : State, step s = .next t → t.fault = none →
    (∀ x, Executes s (.ldDtVx x) → t.DT.toNat = (readV s x).toNat - 1) ∧
    ((∀ x, ¬ Executes s (.ldDtVx x)) → t.DT.toNat = s.DT.toNat - 1) ∧
    (∀ x, Executes s (.ldStVx x) → t.ST.toNat = (readV s x).toNat - 1) ∧
    ((∀ x, ¬ Executes s (.ldStVx x)) → t.ST.toNat = s.ST.toNat - 1)

/-- R8, R62, R67: nothing but a fault already taken keeps the core from a step: no instruction, operand or word
stops it, and every meaning answers a next state. -/
def Obligations.EveryRunningCoreTakesAStep : Prop :=
  (∀ s : State, s.fault = none → ∃ t, step s = .next t) ∧
  (∀ (i : Instr) (s : State), ∃ t, exec i s = .next t ∧ ∀ c, t.fault = some c → s.fault = some c ∨ t = raiseFault c s)

/-! ## Control flow (40_control_flow.md R80 to R90) -/

/-- R80: RET takes `SP` down by one and resumes at the slot's value, which the slot keeps; an empty stack faults. -/
def Obligations.ReturnResumesAtThePoppedAddress : Prop :=
  ∀ s : State,
    (0 < s.SP.val → ∃ t, exec .ret s = .next t ∧ t.SP.val = s.SP.val - 1 ∧
      s.stack[s.SP.val - 1]? = some t.PC ∧ OnlyWrites [] [.sp] s t) ∧
    (s.SP.val = 0 → exec .ret s = .next { s with fault := some .stackUnderflow })

/-- R81: JP sets `PC` to `nnn`, with no further increment, and nothing else. -/
def Obligations.JumpSetsThePC : Prop :=
  ∀ (nnn : Imm12) (s : State), ∃ t, exec (.jpNnn nnn) s = .next t ∧ t.PC.toNat = nnn.toNat ∧ OnlyWrites [] [] s t

/-- R82: CALL pushes the address after the call and jumps; the other slots are kept; a full stack faults. -/
def Obligations.CallPushesTheNextAddress : Prop :=
  ∀ (nnn : Imm12) (s : State),
    (s.SP.val < 16 → ∃ t, exec (.callNnn nnn) s = .next t ∧ t.stack[s.SP.val]? = some (s.PC + 2) ∧
      (∀ k, k ≠ s.SP.val → t.stack[k]? = s.stack[k]?) ∧ t.SP.val = s.SP.val + 1 ∧ t.PC.toNat = nnn.toNat ∧
      OnlyWrites [] [.slots, .sp] s t) ∧
    (s.SP.val = 16 → exec (.callNnn nnn) s = .next { s with fault := some .stackOverflow })

/-- A call and then a return come back to the instruction after the call, with the stack pointer as before and
nothing else changed but the slot used (R80, R82; the spec's example S6). -/
def Obligations.CallThenReturnComesBack : Prop :=
  ∀ (nnn : Imm12) (s : State), s.SP.val < 16 →
    ∃ t u, exec (.callNnn nnn) s = .next t ∧ exec .ret t = .next u ∧ u.PC = s.PC + 2 ∧
      OnlyWrites [] [.slots] s u

/-- R83, R84: SE Vx, nn and SNE Vx, nn skip on equality and on inequality, and change `PC` alone. -/
def Obligations.ImmediateSkipsCompareTheRegister : Prop :=
  ∀ (x : Reg) (nn : Byte) (s : State),
    (∃ t, exec (.seVxNn x nn) s = .next t ∧
      t.PC = (if readV s x = nn then s.PC + 4 else s.PC + 2) ∧ OnlyWrites [] [] s t) ∧
    (∃ t, exec (.sneVxNn x nn) s = .next t ∧
      t.PC = (if readV s x ≠ nn then s.PC + 4 else s.PC + 2) ∧ OnlyWrites [] [] s t)

/-- R85, R86: SE Vx, Vy and SNE Vx, Vy skip on equality and on inequality of two registers, and change `PC` alone. -/
def Obligations.RegisterSkipsCompareTwoRegisters : Prop :=
  ∀ (x y : Reg) (s : State),
    (∃ t, exec (.seVxVy x y) s = .next t ∧
      t.PC = (if readV s x = readV s y then s.PC + 4 else s.PC + 2) ∧ OnlyWrites [] [] s t) ∧
    (∃ t, exec (.sneVxVy x y) s = .next t ∧
      t.PC = (if readV s x ≠ readV s y then s.PC + 4 else s.PC + 2) ∧ OnlyWrites [] [] s t)

/-- R87: JP V0, nnn jumps to `nnn + V0` modulo 4096, always V0. -/
def Obligations.OffsetJumpIsMaskedToMemory : Prop :=
  ∀ (nnn : Imm12) (s : State), ∃ t, exec (.jpV0Nnn nnn) s = .next t ∧
    t.PC.toNat = (nnn.toNat + (readV s 0).toNat) % 4096 ∧ OnlyWrites [] [] s t

/-- R13, R88, R90: the values `PC` can have after a cycle that does not fault: as it was,
for a key-wait that stalls (R174, R177), `PC + 2`, `PC + 4` for the skip family alone, a target for the transfers alone. -/
def Obligations.PCGoesOnlyWhereTheInstructionSays : Prop :=
  ∀ s t : State, step s = .next t → t.fault = none →
    (t.PC = s.PC + 2 ∧ ∀ i, Executes s i → isTransfer i = false) ∨
    (t.PC = s.PC + 4 ∧ ∃ i, Executes s i ∧ isSkip i = true) ∨
    (t.PC = s.PC ∧ (∃ x, Executes s (.ldVxK x)) ∧ ∀ k : Fin 16, s.key[k] = false) ∨
    (∃ i, Executes s i ∧ isTransfer i = true)

/-! ## Registers, arithmetic and logic (41_alu.md R100 to R114) -/

/-- R100, R101: LD Vx, nn and ADD Vx, nn, which wraps and touches no flag (VF as any register where x = F). -/
def Obligations.ImmediateLoadAndAddWriteVx : Prop :=
  ∀ (x : Reg) (nn : Byte) (s : State),
    (∃ t, exec (.ldVxNn x nn) s = .next t ∧ readV t x = nn ∧ t.PC = s.PC + 2 ∧ OnlyWrites [x] [] s t) ∧
    (∃ t, exec (.addVxNn x nn) s = .next t ∧ (readV t x).toNat = ((readV s x).toNat + nn.toNat) % 256 ∧
      t.PC = s.PC + 2 ∧ OnlyWrites [x] [] s t)

/-- R104 to R107: the copy, and the bitwise operations bit by bit; VF is kept unless x = F. -/
def Obligations.CopyAndLogicWriteVx : Prop :=
  ∀ (x y : Reg) (s : State),
    (∃ t, exec (.ldVxVy x y) s = .next t ∧ readV t x = readV s y ∧ t.PC = s.PC + 2 ∧ OnlyWrites [x] [] s t) ∧
    (∃ t, exec (.orVxVy x y) s = .next t ∧
      (∀ k, (readV t x).getLsbD k = ((readV s x).getLsbD k || (readV s y).getLsbD k)) ∧
      t.PC = s.PC + 2 ∧ OnlyWrites [x] [] s t) ∧
    (∃ t, exec (.andVxVy x y) s = .next t ∧
      (∀ k, (readV t x).getLsbD k = ((readV s x).getLsbD k && (readV s y).getLsbD k)) ∧
      t.PC = s.PC + 2 ∧ OnlyWrites [x] [] s t) ∧
    (∃ t, exec (.xorVxVy x y) s = .next t ∧
      (∀ k, (readV t x).getLsbD k = ((readV s x).getLsbD k ^^ (readV s y).getLsbD k)) ∧
      t.PC = s.PC + 2 ∧ OnlyWrites [x] [] s t)

/-- R108: ADD Vx, Vy writes the sum modulo 256, and then the carry to VF, so that VF is the carry where x = F. -/
def Obligations.AddWritesSumThenCarry : Prop :=
  ∀ (x y : Reg) (s : State), ∃ t, exec (.addVxVy x y) s = .next t ∧
    (x ≠ Reg.flag → (readV t x).toNat = ((readV s x).toNat + (readV s y).toNat) % 256) ∧
    (readV t Reg.flag).toNat = (if (readV s x).toNat + (readV s y).toNat > 255 then 1 else 0) ∧
    t.PC = s.PC + 2 ∧ OnlyWrites [x, Reg.flag] [] s t

/-- R109, R111: SUB and SUBN write the difference modulo 256, and then 1 to VF where no borrow occurred; SUBN's
minuend is Vy. -/
def Obligations.SubtractsWriteDifferenceThenNoBorrow : Prop :=
  ∀ (x y : Reg) (s : State),
    (∃ t, exec (.subVxVy x y) s = .next t ∧
      (x ≠ Reg.flag → (readV t x).toNat = ((readV s x).toNat + 256 - (readV s y).toNat) % 256) ∧
      (readV t Reg.flag).toNat = (if (readV s x).toNat ≥ (readV s y).toNat then 1 else 0) ∧
      t.PC = s.PC + 2 ∧ OnlyWrites [x, Reg.flag] [] s t) ∧
    (∃ t, exec (.subnVxVy x y) s = .next t ∧
      (x ≠ Reg.flag → (readV t x).toNat = ((readV s y).toNat + 256 - (readV s x).toNat) % 256) ∧
      (readV t Reg.flag).toNat = (if (readV s y).toNat ≥ (readV s x).toNat then 1 else 0) ∧
      t.PC = s.PC + 2 ∧ OnlyWrites [x, Reg.flag] [] s t)

/-- R110, R112: SHR and SHL shift Vx in place by one, whatever `y`, and then write the bit pushed out to VF: the old
bit 0, the old bit 7. -/
def Obligations.ShiftsWriteResultThenBitPushedOut : Prop :=
  ∀ (x y : Reg) (s : State),
    (∃ t, exec (.shrVx x y) s = .next t ∧
      (x ≠ Reg.flag → (readV t x).toNat = (readV s x).toNat / 2) ∧
      (readV t Reg.flag).toNat = (readV s x).toNat % 2 ∧
      t.PC = s.PC + 2 ∧ OnlyWrites [x, Reg.flag] [] s t) ∧
    (∃ t, exec (.shlVx x y) s = .next t ∧
      (x ≠ Reg.flag → (readV t x).toNat = (readV s x).toNat * 2 % 256) ∧
      (readV t Reg.flag).toNat = (readV s x).toNat / 128 ∧
      t.PC = s.PC + 2 ∧ OnlyWrites [x, Reg.flag] [] s t)

/-- R113: RND writes some byte under the mask, the draw of this execution, whatever it is; each execution takes a
draw of its own. It says nothing of the draw's value, a free value of the model (log 1). -/
def Obligations.RandomByteIsMasked : Prop :=
  ∀ (x : Reg) (nn : Byte) (s : State), ∃ t, exec (.rndVxNn x nn) s = .next t ∧
    (∃ r : Byte, readV t x = r &&& nn) ∧ readV t x = Config.freeRand s.draws &&& nn ∧ t.draws = s.draws + 1 ∧
    t.PC = s.PC + 2 ∧ OnlyWrites [x] [.draws] s t

/-- R11: the seven flag-defining instructions leave 0 or 1 in VF on every execution that does not fault, and no
instruction writes a register that is not its destination, VF where it defines a flag, or V0 to Vx for Fx65. -/
def Obligations.RegistersHaveOnlyTheListedWriters : Prop :=
  (∀ (i : Instr) (r : Reg) (s t : State), exec i s = .next t → mayWriteReg i r = false → readV t r = readV s r) ∧
  (∀ (i : Instr) (s t : State), exec i s = .next t → s.fault = none → t.fault = none →
    (∃ x y, i = .addVxVy x y ∨ i = .subVxVy x y ∨ i = .shrVx x y ∨ i = .subnVxVy x y ∨ i = .shlVx x y ∨
      i = .addIVx x ∨ ∃ n, i = .drwVxVyN x y n) →
    readV t Reg.flag = 0 ∨ readV t Reg.flag = 1)

/-! ## Index register and memory transfers (42_index_memory.md R130 to R136) -/

/-- R130: LD I, nnn. -/
def Obligations.LoadIndexWritesI : Prop :=
  ∀ (nnn : Imm12) (s : State), ∃ t, exec (.ldINnn nnn) s = .next t ∧ t.I.toNat = nnn.toNat ∧ t.PC = s.PC + 2 ∧
    OnlyWrites [] [.index] s t

/-- R131: ADD I, Vx adds modulo 2^16, and VF is 1 where the unbounded sum passes 0xFFF, else 0; where x = F the old
VF is the addend. -/
def Obligations.AddIndexWrapsAndFlagsPastMemory : Prop :=
  ∀ (x : Reg) (s : State), ∃ t, exec (.addIVx x) s = .next t ∧
    t.I.toNat = (s.I.toNat + (readV s x).toNat) % 0x10000 ∧
    (readV t Reg.flag).toNat = (if s.I.toNat + (readV s x).toNat > 0xFFF then 1 else 0) ∧
    t.PC = s.PC + 2 ∧ OnlyWrites [Reg.flag] [.index] s t

/-- R132: LD F, Vx points `I` at the digit's glyph, 5 * Vx, and faults on a value above 0xF. -/
def Obligations.FontGlyphAddressIsFiveTimesTheDigit : Prop :=
  ∀ (x : Reg) (s : State),
    ((readV s x).toNat ≤ 0xF → ∃ t, exec (.ldFVx x) s = .next t ∧ t.I.toNat = 5 * (readV s x).toNat ∧
      t.PC = s.PC + 2 ∧ OnlyWrites [] [.index] s t) ∧
    (0xF < (readV s x).toNat → exec (.ldFVx x) s = .next { s with fault := some .fontDigitOutOfRange })

/-- R133: LD B, Vx stores the hundreds, tens and ones digits at `I`, `I + 1`, `I + 2`, and no other byte; where
`I + 2` is outside memory it faults and stores nothing. -/
def Obligations.BcdStoresThreeDigits : Prop :=
  ∀ (x : Reg) (s : State),
    (s.I.toNat + 2 ≤ 0xFFF → ∃ t, exec (.ldBVx x) s = .next t ∧
      (t.mem.read s.I.toNat).toNat = (readV s x).toNat / 100 ∧
      (t.mem.read (s.I.toNat + 1)).toNat = (readV s x).toNat / 10 % 10 ∧
      (t.mem.read (s.I.toNat + 2)).toNat = (readV s x).toNat % 10 ∧
      MemKeptBut s.I.toNat 3 s t ∧ t.PC = s.PC + 2 ∧ RegsKeptBut [] s t ∧ PartsKeptBut [] s t) ∧
    (0xFFF < s.I.toNat + 2 → exec (.ldBVx x) s = .next { s with fault := some .indexOutOfRange })

/-- R134: LD [I], Vx stores V0 to Vx at `I` to `I + x`, and no other byte; `I` is kept; where `I + x` is outside
memory it faults and stores nothing. -/
def Obligations.RegisterStoreWritesV0ToVx : Prop :=
  ∀ (x : Reg) (s : State),
    (s.I.toNat + x.val ≤ 0xFFF → ∃ t, exec (.ldMemVx x) s = .next t ∧
      (∀ k : Reg, k ≤ x → t.mem.read (s.I.toNat + k.val) = readV s k) ∧
      MemKeptBut s.I.toNat (x.val + 1) s t ∧ t.PC = s.PC + 2 ∧ RegsKeptBut [] s t ∧ PartsKeptBut [] s t) ∧
    (0xFFF < s.I.toNat + x.val → exec (.ldMemVx x) s = .next { s with fault := some .indexOutOfRange })

/-- R135: LD Vx, [I] loads V0 to Vx from `I` to `I + x`; the registers above Vx and `I` are kept; where `I + x` is
outside memory it faults and loads nothing. -/
def Obligations.RegisterLoadReadsV0ToVx : Prop :=
  ∀ (x : Reg) (s : State),
    (s.I.toNat + x.val ≤ 0xFFF → ∃ t, exec (.ldVxMem x) s = .next t ∧
      (∀ k : Reg, k ≤ x → readV t k = s.mem.read (s.I.toNat + k.val)) ∧
      (∀ k : Reg, x < k → readV t k = readV s k) ∧
      t.PC = s.PC + 2 ∧ PartsKeptBut [] s t ∧ MemKept s t) ∧
    (0xFFF < s.I.toNat + x.val → exec (.ldVxMem x) s = .next { s with fault := some .indexOutOfRange })

/-- Storing V0 to Vx and then, whatever the registers have become, loading V0 to Vx through the same `I` brings the
stored values back (R134, R135). -/
def Obligations.StoredRegistersAreLoadedBack : Prop :=
  ∀ (x : Reg) (s t u : State), s.I.toNat + x.val ≤ 0xFFF → exec (.ldMemVx x) s = .next t →
    u.mem = t.mem → u.I = s.I →
    ∃ v, exec (.ldVxMem x) u = .next v ∧ ∀ k : Reg, k ≤ x → readV v k = readV s k

/-! ## Memory (20_memory.md R40 to R56) -/

/-- Two memories in the canonical form that read the same at every address are the same list: equal memories are
equal data (the model's form of R40's array). -/
def Obligations.CanonicalMemoryIsItsBytes : Prop :=
  ∀ m m' : Memory, m.wf → m'.wf → (∀ a, m.read a = m'.read a) → m = m'

/-- R56: a byte stored at `a` is the high byte of the word fetched at `a`, the low byte of the word fetched at
`a - 1`, and part of no other fetch. -/
def Obligations.StoredByteIsSeenByTheFetch : Prop :=
  ∀ (m : Memory) (a : Nat) (v : Byte),
    (m.write a v).readWord a = v ++ m.read (a + 1) ∧
    (∀ b, b + 1 = a → (m.write a v).readWord b = m.read b ++ v) ∧
    (∀ b, b ≠ a → b + 1 ≠ a → (m.write a v).readWord b = m.readWord b)

/-- R25, R42, R154 and the rest of R26's "written by" column, for a whole cycle: each part of the state is kept by
every cycle whose instruction is not one of its writers (the timers but for the tick, `fault` but for raising one), and
memory by every cycle but those of Fx33 and Fx55. -/
def Obligations.EachPartHasOnlyItsListedWriters : Prop :=
  ∀ (s t : State) (i : Instr), Executes s i → step s = .next t →
    (∀ p : Part, mayWritePart i p = false → p ≠ .delay → p ≠ .sound → p ≠ .fault → p.kept s t) ∧
    (mayStore i = false → MemKept s t) ∧
    (mayWritePart i .delay = false → t.DT.toNat = s.DT.toNat - 1 ∨ t.fault ≠ none) ∧
    (mayWritePart i .sound = false → t.ST.toNat = s.ST.toNat - 1 ∨ t.fault ≠ none)

/-! ## Display (43_display.md R150 to R154) -/

/-- R150: CLS turns every pixel off and changes nothing else. -/
def Obligations.ClearTurnsEveryPixelOff : Prop :=
  ∀ s : State, ∃ t, exec .cls s = .next t ∧ (∀ y x, t.fb.pixel y x = false) ∧ t.PC = s.PC + 2 ∧
    OnlyWrites [] [.display] s t

/-- R152, R151, R153: DRW toggles exactly the pixels that a 1 bit of the sprite falls on, wrapping at both edges,
with the coordinates of the old registers; VF is 1 exactly where one of those pixels was on; n = 0 draws nothing and
makes no check; a sprite that leaves memory faults and draws nothing. -/
def Obligations.DrawTogglesThePixelsTheSpriteCovers : Prop :=
  ∀ (x y : Reg) (n : Nibble) (s : State),
    (n.toNat = 0 ∨ s.I.toNat + n.toNat - 1 ≤ 0xFFF → ∃ t, exec (.drwVxVyN x y n) s = .next t ∧
      (∀ py px, (spriteCovers s x y n.toNat py px → t.fb.pixel py px = !(s.fb.pixel py px)) ∧
        (¬ spriteCovers s x y n.toNat py px → t.fb.pixel py px = s.fb.pixel py px)) ∧
      ((∃ py px, spriteCovers s x y n.toNat py px ∧ s.fb.pixel py px = true) → readV t Reg.flag = 1) ∧
      ((∀ py px, spriteCovers s x y n.toNat py px → s.fb.pixel py px = false) → readV t Reg.flag = 0) ∧
      t.PC = s.PC + 2 ∧ OnlyWrites [Reg.flag] [.display] s t) ∧
    (0 < n.toNat → 0xFFF < s.I.toNat + n.toNat - 1 →
      exec (.drwVxVyN x y n) s = .next { s with fault := some .indexOutOfRange })

/-- Drawing the same sprite twice at the same place gives the frame buffer back, and the second draw collides exactly
where the first turned a pixel on (R152; the spec's example S5, where every covered pixel was off to begin with). "The
same place" is said of the registers that give it, so that x = F and y = F are covered. -/
def Obligations.DrawingTwiceRestoresTheScreen : Prop :=
  ∀ (x y : Reg) (n : Nibble) (s t : State), n.toNat = 0 ∨ s.I.toNat + n.toNat - 1 ≤ 0xFFF →
    exec (.drwVxVyN x y n) s = .next t →
    (readV t x).toNat % 64 = (readV s x).toNat % 64 → (readV t y).toNat % 32 = (readV s y).toNat % 32 →
    ∃ u, exec (.drwVxVyN x y n) t = .next u ∧ u.fb = s.fb ∧
      (readV u Reg.flag = 1 ↔ ∃ py px, spriteCovers s x y n.toNat py px ∧ s.fb.pixel py px = false) ∧
      (readV u Reg.flag = 0 ↔ ∀ py px, spriteCovers s x y n.toNat py px → s.fb.pixel py px = true)

/-! ## Keypad and timers (44_timers_keypad.md R170 to R177) -/

/-- R170, R171: SKP and SKNP skip on the named key being pressed and not being pressed, change `PC` alone, and fault
on a key number above 0xF. -/
def Obligations.KeySkipsReadTheNamedKey : Prop :=
  ∀ (x : Reg) (s : State),
    (∀ k : Fin 16, (readV s x).toNat = k.val →
      (∃ t, exec (.skpVx x) s = .next t ∧
        t.PC = (if s.key[k] = true then s.PC + 4 else s.PC + 2) ∧ OnlyWrites [] [] s t) ∧
      (∃ t, exec (.sknpVx x) s = .next t ∧
        t.PC = (if s.key[k] = false then s.PC + 4 else s.PC + 2) ∧ OnlyWrites [] [] s t)) ∧
    (0xF < (readV s x).toNat →
      exec (.skpVx x) s = .next { s with fault := some .keyIndexOutOfRange } ∧
      exec (.sknpVx x) s = .next { s with fault := some .keyIndexOutOfRange })

/-- R174: LD Vx, K loads the lowest pressed key; with no key pressed it writes nothing, `PC` included. -/
def Obligations.KeyWaitTakesTheLowestPressedKey : Prop :=
  ∀ (x : Reg) (s : State),
    (∀ k : Fin 16, s.key[k] = true → (∀ j < k, s.key[j] = false) →
      ∃ t, exec (.ldVxK x) s = .next t ∧ (readV t x).toNat = k.val ∧ t.PC = s.PC + 2 ∧ OnlyWrites [x] [] s t) ∧
    ((∀ k : Fin 16, s.key[k] = false) → exec (.ldVxK x) s = .next s)

/-- R177: a cycle of a key-wait with no key pressed changes only the timers, by the tick, so that the next cycle is
the same key-wait again; with a key pressed it advances. -/
def Obligations.StalledKeyWaitChangesOnlyTimers : Prop :=
  ∀ (x : Reg) (s : State), Executes s (.ldVxK x) →
    ((∀ k : Fin 16, s.key[k] = false) → ∃ t, step s = .next t ∧ t.PC = s.PC ∧
      OnlyWrites [] [.delay, .sound] s t ∧ t.DT.toNat = s.DT.toNat - 1 ∧ t.ST.toNat = s.ST.toNat - 1 ∧
      Executes t (.ldVxK x)) ∧
    (∀ k : Fin 16, s.key[k] = true → ∃ t, step s = .next t ∧ t.PC = s.PC + 2 ∧ (readV t x).toNat ≤ k.val)

/-- R172: LD Vx, DT loads the delay timer, which its own cycle ticks only afterwards. -/
def Obligations.ReadDelayLoadsTheTimer : Prop :=
  ∀ (x : Reg) (s : State),
    (∃ t, exec (.ldVxDt x) s = .next t ∧ readV t x = s.DT ∧ t.PC = s.PC + 2 ∧ OnlyWrites [x] [] s t) ∧
    (Executes s (.ldVxDt x) → ∃ t, step s = .next t ∧ readV t x = s.DT ∧ t.DT.toNat = s.DT.toNat - 1)

/-- R175, R176: LD DT, Vx and LD ST, Vx write a timer, and the tick of the same cycle takes one off. -/
def Obligations.TimerWritesAreTickedInTheirOwnCycle : Prop :=
  ∀ (x : Reg) (s : State),
    (∃ t, exec (.ldDtVx x) s = .next t ∧ t.DT = readV s x ∧ t.PC = s.PC + 2 ∧ OnlyWrites [] [.delay] s t) ∧
    (∃ t, exec (.ldStVx x) s = .next t ∧ t.ST = readV s x ∧ t.PC = s.PC + 2 ∧ OnlyWrites [] [.sound] s t) ∧
    (Executes s (.ldDtVx x) → ∃ t, step s = .next t ∧ t.DT.toNat = (readV s x).toNat - 1) ∧
    (Executes s (.ldStVx x) → ∃ t, step s = .next t ∧ t.ST.toNat = (readV s x).toNat - 1 ∧
      (soundActive t = true ↔ 1 < (readV s x).toNat))

/-- Fx15 with value v, then Fx07 in the next cycle, reads max(v - 1, 0) (70_reset_and_hazards.md R237). -/
def Obligations.DelayReadAfterWriteIsOneLess : Prop :=
  ∀ (x y : Reg) (s t : State), Executes s (.ldDtVx x) → step s = .next t → Executes t (.ldVxDt y) →
    ∃ u, step t = .next u ∧ (readV u y).toNat = (readV s x).toNat - 1

/-! ## Reset, boot and the host's ports (70_reset_and_hazards.md; 10_state.md R26, R30 to R39) -/

/-- R230, R26, R45: every piece of state after reset, by construction or by the port from any state, in or out of a
fault. It says nothing of `draws`, the model's own (log 2). -/
def Obligations.ResetGivesEveryPieceItsValue : Prop :=
  ∀ s r : State, r = State.reset ∨ r = resetPort s →
    r.mem.readBytes 0x000 80 =
      [0xF0, 0x90, 0x90, 0x90, 0xF0, 0x20, 0x60, 0x20, 0x20, 0x70, 0xF0, 0x10, 0xF0, 0x80, 0xF0, 0xF0, 0x10, 0xF0,
        0x10, 0xF0, 0x90, 0x90, 0xF0, 0x10, 0x10, 0xF0, 0x80, 0xF0, 0x10, 0xF0, 0xF0, 0x80, 0xF0, 0x90, 0xF0, 0xF0,
        0x10, 0x20, 0x40, 0x40] ++
      [0xF0, 0x90, 0xF0, 0x90, 0xF0, 0xF0, 0x90, 0xF0, 0x10, 0xF0, 0xF0, 0x90, 0xF0, 0x90, 0x90, 0xE0, 0x90, 0xE0,
        0x90, 0xE0, 0xF0, 0x80, 0x80, 0x80, 0xF0, 0xE0, 0x90, 0x90, 0x90, 0xE0, 0xF0, 0x80, 0xF0, 0x80, 0xF0, 0xF0,
        0x80, 0xF0, 0x80, 0x80] ∧
    (∀ a, 0x050 ≤ a → r.mem.read a = 0) ∧ (∀ x, readV r x = 0) ∧ r.I = 0 ∧ r.PC = 0x200 ∧
    (∀ k : Fin 16, r.stack[k] = 0) ∧ r.SP = 0 ∧ r.DT = 0 ∧ r.ST = 0 ∧ (∀ k : Fin 16, r.key[k] = false) ∧
    (∀ y x, r.fb.pixel y x = false) ∧ r.fault = none

/-- R33: the load port writes the image verbatim from 0x200 and no other state; an image over 3584 bytes is refused
whole. -/
def Obligations.LoadWritesTheImageVerbatim : Prop :=
  ∀ (data : List Byte) (s : State),
    (data.length ≤ 3584 → ∃ t, loadProgram data s = .next t ∧
      (∀ k v, data[k]? = some v → t.mem.read (0x200 + k) = v) ∧
      MemKeptBut 0x200 data.length s t ∧ RegsKeptBut [] s t ∧ PartsKeptBut [] s t ∧ t.PC = s.PC) ∧
    (3584 < data.length → loadProgram data s = .refused (.imageTooLong data.length))

/-- R31, R39: the keypad port writes the flags and nothing else. R22, R34: `fb_out` is the frame buffer, flat, pixel
(y, x) at index y * 64 + x. R35: `sound_active`, `dt_out` and `st_out` are read off the timers. R37, R202:
`fault_out` is absent while there is no fault, and else shows the code, `PC` and the opcode at `PC`, which a fetch
fault lacks (read from memory when asked: log 4). `report_out` is UnknownOpcodeIsReportedAndPassedOver's. -/
def Obligations.PortsShowTheState : Prop :=
  ∀ (s : State) (keys : Vector Bool 16),
    ((setKeys keys s).key = keys ∧ (setKeys keys s).PC = s.PC ∧ OnlyWrites [] [.keys] s (setKeys keys s)) ∧
    (∀ (y : Fin 32) (x : Fin 64), (fbOut s)[y.val * 64 + x.val]? = some (s.fb.pixel y x)) ∧
    (soundActive s = true ↔ s.ST ≠ 0) ∧ dtOut s = s.DT ∧ stOut s = s.ST ∧
    (s.fault = none → faultOut s = none) ∧
    (∀ c, s.fault = some c →
      faultOut s = some ⟨c, s.PC, if c = .pcOutOfRange then none else some (fetchWord s)⟩)

/-- R231, R233: with no program loaded, cycling from reset reports 0x0000 at each even address from 0x200 up, 1792
times, changing only `PC`, and the 1793rd cycle faults at 0x1000. -/
def Obligations.UnloadedCoreRunsOffTheEndOfMemory : Prop :=
  (∀ k ≤ 1792, core.run k State.reset = .next { State.reset with PC := BitVec.ofNat 16 (0x200 + 2 * k) }) ∧
  (∀ k < 1792, ∀ s, core.run k State.reset = .next s → reportOut s = some ⟨BitVec.ofNat 16 (0x200 + 2 * k), 0⟩) ∧
  core.run 1793 State.reset =
    .next { State.reset with PC := 0x1000, fault := some .pcOutOfRange }

/-! ## Invariants and whole-machine rules -/

/-- The invariant holds after reset (20_memory.md R40; 10_state.md R13, R15, R17; 60_exceptions.md R201). That no
fault is set there is ResetGivesEveryPieceItsValue's. The canonical form of memory is the model's (log 8). -/
def Obligations.ResetMeetsTheInvariant : Prop := State.Inv State.reset

/-- Every step keeps the invariant, from every state that meets it: memory canonical (the model's form, log 8), `PC`
at most 0x1002, stack slots at most 0x1000, and, if a fault is set, a fetch fault exactly where `PC` is out of range. -/
def Obligations.EveryStepKeepsTheInvariant : Prop :=
  ∀ s t : State, s.Inv → step s = .next t → t.Inv

/-- Whatever the host does between cycles, every state the machine reaches from reset meets the invariant (its
canonical memory: log 8), and every running one takes a step. -/
def Obligations.EveryReachableStateMeetsTheInvariant : Prop :=
  ∀ s : State, Reachable s → s.Inv ∧ (s.running → ∃ t, step s = .next t)

/-- R21: the core never writes the keypad, and the keypad reaches the machine only through Ex9E, ExA1 and Fx0A: no
step changes the key flags, and two cores that differ in the key flags alone take steps that differ in the key flags
alone, unless the instruction is one of the three. For Cxnn it says so of two steps that take the same draw: both cores
have the same counter `draws`, the model's own choice (log 1), where the hardware may draw two different bytes. -/
def Obligations.KeysAreReadOnlyByKeyInstructions : Prop :=
  ∀ (s t : State) (keys : Vector Bool 16), step s = .next t →
    t.key = s.key ∧
    ((∀ i, Executes s i → readsKeys i = false) → step { s with key := keys } = .next { t with key := keys })

/-- R20: no instruction reads the sound timer: two cores that differ in `ST` alone take steps that differ in `ST`
alone. For Cxnn it says so of two steps that take the same draw: both cores have the same counter `draws`, the model's
own choice (log 1), where the hardware may draw two different bytes. -/
def Obligations.SoundTimerIsReadByNoInstruction : Prop :=
  ∀ (s t : State) (v : Byte), step s = .next t →
    ∃ w, step { s with ST := v } = .next { t with ST := w }

/-- R236 (b) and (c): a core at a self-jump, or at a key-wait with no key pressed, goes on running there, changing
only the timers, and is at the same end after every cycle. -/
def Obligations.EndedRunStaysWhereItIs : Prop :=
  ∀ (s : State) (e : RunEnd), e = .selfJump ∨ e = .stalledWait → runEnd? s = some e →
    ∃ t, step s = .next t ∧ t.PC = s.PC ∧ OnlyWrites [] [.delay, .sound] s t ∧ runEnd? t = some e

/-- Every action keeps the invariant, from every state that meets it: a cycle, and the host's key write, program load
and reset (10_state.md R39), on a stopped core too (the model's choice, log 9). Canonical memory is the model's form
(log 8). -/
def Obligations.EveryActionKeepsTheInvariant : Prop :=
  ∀ (s t : State) (a : Action), s.Inv → act a s = .next t → t.Inv
end

