-- ==== Sys2Proof/Laws/Decode.lean ====
section
/-!
SUPPORT. The fields of a word as numbers, and the fields of the words the three formats build.
-/

namespace Sys2Proof

/-! ## Fields as numbers -/

theorem append_toNat {v w : Nat} (a : BitVec v) (b : BitVec w) :
    (a ++ b).toNat = a.toNat * 2 ^ w + b.toNat := by
  rw [BitVec.toNat_append, ← Nat.shiftLeft_add_eq_or_of_lt b.isLt, Nat.shiftLeft_eq]

theorem fieldF_toNat (op : Word) : (fieldF op).toNat = op.toNat / 0x1000 := by
  have := op.isLt
  simp only [fieldF, BitVec.extractLsb'_toNat, Nat.shiftRight_eq_div_pow]
  omega

theorem fieldX_val (op : Word) : (fieldX op).val = op.toNat / 0x100 % 0x10 := by
  simp [fieldX, Nat.shiftRight_eq_div_pow]

theorem fieldY_val (op : Word) : (fieldY op).val = op.toNat / 0x10 % 0x10 := by
  simp [fieldY, Nat.shiftRight_eq_div_pow]

theorem fieldN_toNat (op : Word) : (fieldN op).toNat = op.toNat % 0x10 := by
  simp [fieldN]

theorem fieldNn_toNat (op : Word) : (fieldNn op).toNat = op.toNat % 0x100 := by
  simp [fieldNn]

theorem fieldNnn_toNat (op : Word) : (fieldNnn op).toNat = op.toNat % 0x1000 := by
  simp [fieldNnn]

theorem wordOfBytes_toNat (hi lo : Byte) : (wordOfBytes hi lo).toNat = hi.toNat * 0x100 + lo.toNat :=
  append_toNat hi lo

theorem highByte_toNat (op : Word) : (highByte op).toNat = op.toNat / 0x100 := by
  have := op.isLt
  simp only [highByte, BitVec.extractLsb'_toNat, Nat.shiftRight_eq_div_pow]
  omega

theorem lowByte_toNat (op : Word) : (lowByte op).toNat = op.toNat % 0x100 := by
  simp [lowByte]

/-! ## Words as numbers -/

theorem formNnn_toNat (f : Nibble) (nnn : Imm12) : (formNnn f nnn).toNat = f.toNat * 0x1000 + nnn.toNat :=
  append_toNat f nnn

theorem formXnn_toNat (f : Nibble) (x : Reg) (nn : Byte) :
    (formXnn f x nn).toNat = f.toNat * 0x1000 + x.val * 0x100 + nn.toNat := by
  have h : (formXnn f x nn).toNat = (f ++ (BitVec.ofFin x : Nibble)).toNat * 2 ^ 8 + nn.toNat :=
    append_toNat (f ++ (BitVec.ofFin x : Nibble)) nn
  rw [h, append_toNat, show (BitVec.ofFin x : Nibble).toNat = x.val from rfl]
  omega

theorem formXyn_toNat (f : Nibble) (x y : Reg) (n : Nibble) :
    (formXyn f x y n).toNat = f.toNat * 0x1000 + x.val * 0x100 + y.val * 0x10 + n.toNat := by
  have h : (formXyn f x y n).toNat =
      (f ++ (BitVec.ofFin x : Nibble) ++ (BitVec.ofFin y : Nibble)).toNat * 2 ^ 4 + n.toNat :=
    append_toNat (f ++ (BitVec.ofFin x : Nibble) ++ (BitVec.ofFin y : Nibble)) n
  rw [h, append_toNat, append_toNat, show (BitVec.ofFin x : Nibble).toNat = x.val from rfl,
    show (BitVec.ofFin y : Nibble).toNat = y.val from rfl]
  omega

/-! ## Fields of built words -/

@[simp] theorem fieldF_formNnn (f : Nibble) (nnn : Imm12) : fieldF (formNnn f nnn) = f := by
  apply BitVec.eq_of_toNat_eq; rw [fieldF_toNat, formNnn_toNat]; omega

@[simp] theorem fieldNnn_formNnn (f : Nibble) (nnn : Imm12) : fieldNnn (formNnn f nnn) = nnn := by
  apply BitVec.eq_of_toNat_eq; rw [fieldNnn_toNat, formNnn_toNat]; omega

@[simp] theorem fieldF_formXnn (f : Nibble) (x : Reg) (nn : Byte) : fieldF (formXnn f x nn) = f := by
  apply BitVec.eq_of_toNat_eq; rw [fieldF_toNat, formXnn_toNat]; omega

@[simp] theorem fieldX_formXnn (f : Nibble) (x : Reg) (nn : Byte) : fieldX (formXnn f x nn) = x := by
  apply Fin.ext; rw [fieldX_val, formXnn_toNat]; omega

@[simp] theorem fieldNn_formXnn (f : Nibble) (x : Reg) (nn : Byte) : fieldNn (formXnn f x nn) = nn := by
  apply BitVec.eq_of_toNat_eq; rw [fieldNn_toNat, formXnn_toNat]; omega

@[simp] theorem fieldF_formXyn (f : Nibble) (x y : Reg) (n : Nibble) : fieldF (formXyn f x y n) = f := by
  apply BitVec.eq_of_toNat_eq; rw [fieldF_toNat, formXyn_toNat]; omega

@[simp] theorem fieldX_formXyn (f : Nibble) (x y : Reg) (n : Nibble) : fieldX (formXyn f x y n) = x := by
  apply Fin.ext; rw [fieldX_val, formXyn_toNat]; omega

@[simp] theorem fieldY_formXyn (f : Nibble) (x y : Reg) (n : Nibble) : fieldY (formXyn f x y n) = y := by
  apply Fin.ext; rw [fieldY_val, formXyn_toNat]; omega

@[simp] theorem fieldN_formXyn (f : Nibble) (x y : Reg) (n : Nibble) : fieldN (formXyn f x y n) = n := by
  apply BitVec.eq_of_toNat_eq; rw [fieldN_toNat, formXyn_toNat]; omega

/-- The two bytes of a word, joined, are the word. -/
@[simp] theorem wordOfBytes_split (op : Word) : wordOfBytes (highByte op) (lowByte op) = op := by
  apply BitVec.eq_of_toNat_eq; rw [wordOfBytes_toNat, highByte_toNat, lowByte_toNat]; omega

/-! ## Decoding, family by family -/

theorem decode_family0 (op : Word) (h : fieldF op = 0x0) : decode op = decode0 op := by
  unfold decode; rw [h]; rfl
theorem decode_family1 (op : Word) (h : fieldF op = 0x1) : decode op = .instr (.jpNnn (fieldNnn op)) := by
  unfold decode; rw [h]; rfl
theorem decode_family2 (op : Word) (h : fieldF op = 0x2) : decode op = .instr (.callNnn (fieldNnn op)) := by
  unfold decode; rw [h]; rfl
theorem decode_family3 (op : Word) (h : fieldF op = 0x3) : decode op = .instr (.seVxNn (fieldX op) (fieldNn op)) := by
  unfold decode; rw [h]; rfl
theorem decode_family4 (op : Word) (h : fieldF op = 0x4) : decode op = .instr (.sneVxNn (fieldX op) (fieldNn op)) := by
  unfold decode; rw [h]; rfl
theorem decode_family5 (op : Word) (h : fieldF op = 0x5) : decode op = decodeN0 op (.seVxVy (fieldX op) (fieldY op)) := by
  unfold decode; rw [h]; rfl
theorem decode_family6 (op : Word) (h : fieldF op = 0x6) : decode op = .instr (.ldVxNn (fieldX op) (fieldNn op)) := by
  unfold decode; rw [h]; rfl
theorem decode_family7 (op : Word) (h : fieldF op = 0x7) : decode op = .instr (.addVxNn (fieldX op) (fieldNn op)) := by
  unfold decode; rw [h]; rfl
theorem decode_family8 (op : Word) (h : fieldF op = 0x8) : decode op = decode8 op := by
  unfold decode; rw [h]; rfl
theorem decode_family9 (op : Word) (h : fieldF op = 0x9) : decode op = decodeN0 op (.sneVxVy (fieldX op) (fieldY op)) := by
  unfold decode; rw [h]; rfl
theorem decode_familyA (op : Word) (h : fieldF op = 0xA) : decode op = .instr (.ldINnn (fieldNnn op)) := by
  unfold decode; rw [h]; rfl
theorem decode_familyB (op : Word) (h : fieldF op = 0xB) : decode op = .instr (.jpV0Nnn (fieldNnn op)) := by
  unfold decode; rw [h]; rfl
theorem decode_familyC (op : Word) (h : fieldF op = 0xC) : decode op = .instr (.rndVxNn (fieldX op) (fieldNn op)) := by
  unfold decode; rw [h]; rfl
theorem decode_familyD (op : Word) (h : fieldF op = 0xD) : decode op = .instr (.drwVxVyN (fieldX op) (fieldY op) (fieldN op)) := by
  unfold decode; rw [h]; rfl
theorem decode_familyE (op : Word) (h : fieldF op = 0xE) : decode op = decodeE op := by
  unfold decode; rw [h]; rfl
theorem decode_familyF (op : Word) (h : fieldF op = 0xF) : decode op = decodeF op := by
  unfold decode; rw [h]; rfl

/-- The sixteen families. -/
theorem nibble_cases (f : Nibble) :
    f = 0x0 ∨ f = 0x1 ∨ f = 0x2 ∨ f = 0x3 ∨ f = 0x4 ∨ f = 0x5 ∨ f = 0x6 ∨ f = 0x7 ∨ f = 0x8 ∨ f = 0x9 ∨ f = 0xA ∨
      f = 0xB ∨ f = 0xC ∨ f = 0xD ∨ f = 0xE ∨ f = 0xF := by
  revert f; decide

/-- An unknown word is answered as itself. -/
theorem decode_unknown {w op : Word} (h : decode w = .unknown op) : op = w := by
  rcases nibble_cases (fieldF w) with e | e | e | e | e | e | e | e | e | e | e | e | e | e | e | e
  · rw [decode_family0 _ e, decode0] at h
    repeat' split at h
    all_goals cases h
    rfl
  · rw [decode_family1 _ e] at h; cases h
  · rw [decode_family2 _ e] at h; cases h
  · rw [decode_family3 _ e] at h; cases h
  · rw [decode_family4 _ e] at h; cases h
  · rw [decode_family5 _ e, decodeN0] at h; split at h <;> cases h; rfl
  · rw [decode_family6 _ e] at h; cases h
  · rw [decode_family7 _ e] at h; cases h
  · rw [decode_family8 _ e] at h
    unfold decode8 at h
    simp only at h
    split at h
    all_goals first | cases h; done | (cases h; rfl)
  · rw [decode_family9 _ e, decodeN0] at h; split at h <;> cases h; rfl
  · rw [decode_familyA _ e] at h; cases h
  · rw [decode_familyB _ e] at h; cases h
  · rw [decode_familyC _ e] at h; cases h
  · rw [decode_familyD _ e] at h; cases h
  · rw [decode_familyE _ e] at h
    unfold decodeE at h
    simp only at h
    split at h
    all_goals first | cases h; done | (cases h; rfl)
  · rw [decode_familyF _ e] at h
    unfold decodeF at h
    simp only at h
    split at h
    all_goals first | cases h; done | (cases h; rfl)

end Sys2Proof
end

