-- ==== Sys2Proof/Laws/State.lean ====
section
/-!
SUPPORT. What each named update of the state leaves in each field, so that no later proof unfolds a record update.
-/

namespace Sys2Proof.Machine

/-! ## `writeV` -/

@[simp] theorem writeV_mem (s : State) (x : Reg) (v : Byte) : (writeV s x v).mem = s.mem := rfl
@[simp] theorem writeV_V (s : State) (x : Reg) (v : Byte) : (writeV s x v).V = s.V.set x v := rfl
@[simp] theorem writeV_I (s : State) (x : Reg) (v : Byte) : (writeV s x v).I = s.I := rfl
@[simp] theorem writeV_PC (s : State) (x : Reg) (v : Byte) : (writeV s x v).PC = s.PC := rfl
@[simp] theorem writeV_stack (s : State) (x : Reg) (v : Byte) : (writeV s x v).stack = s.stack := rfl
@[simp] theorem writeV_SP (s : State) (x : Reg) (v : Byte) : (writeV s x v).SP = s.SP := rfl
@[simp] theorem writeV_DT (s : State) (x : Reg) (v : Byte) : (writeV s x v).DT = s.DT := rfl
@[simp] theorem writeV_ST (s : State) (x : Reg) (v : Byte) : (writeV s x v).ST = s.ST := rfl
@[simp] theorem writeV_key (s : State) (x : Reg) (v : Byte) : (writeV s x v).key = s.key := rfl
@[simp] theorem writeV_fb (s : State) (x : Reg) (v : Byte) : (writeV s x v).fb = s.fb := rfl
@[simp] theorem writeV_fault (s : State) (x : Reg) (v : Byte) : (writeV s x v).fault = s.fault := rfl
@[simp] theorem writeV_draws (s : State) (x : Reg) (v : Byte) : (writeV s x v).draws = s.draws := rfl

/-! ## `advance` -/

@[simp] theorem advance_mem (s : State) : (advance s).mem = s.mem := rfl
@[simp] theorem advance_V (s : State) : (advance s).V = s.V := rfl
@[simp] theorem advance_I (s : State) : (advance s).I = s.I := rfl
@[simp] theorem advance_PC (s : State) : (advance s).PC = s.PC + 2 := rfl
@[simp] theorem advance_stack (s : State) : (advance s).stack = s.stack := rfl
@[simp] theorem advance_SP (s : State) : (advance s).SP = s.SP := rfl
@[simp] theorem advance_DT (s : State) : (advance s).DT = s.DT := rfl
@[simp] theorem advance_ST (s : State) : (advance s).ST = s.ST := rfl
@[simp] theorem advance_key (s : State) : (advance s).key = s.key := rfl
@[simp] theorem advance_fb (s : State) : (advance s).fb = s.fb := rfl
@[simp] theorem advance_fault (s : State) : (advance s).fault = s.fault := rfl
@[simp] theorem advance_draws (s : State) : (advance s).draws = s.draws := rfl

/-! ## `skipIf` -/

@[simp] theorem skipIf_mem (c : Bool) (s : State) : (skipIf c s).mem = s.mem := rfl
@[simp] theorem skipIf_V (c : Bool) (s : State) : (skipIf c s).V = s.V := rfl
@[simp] theorem skipIf_I (c : Bool) (s : State) : (skipIf c s).I = s.I := rfl
@[simp] theorem skipIf_PC (c : Bool) (s : State) : (skipIf c s).PC = if c then s.PC + 4 else s.PC + 2 := rfl
@[simp] theorem skipIf_stack (c : Bool) (s : State) : (skipIf c s).stack = s.stack := rfl
@[simp] theorem skipIf_SP (c : Bool) (s : State) : (skipIf c s).SP = s.SP := rfl
@[simp] theorem skipIf_DT (c : Bool) (s : State) : (skipIf c s).DT = s.DT := rfl
@[simp] theorem skipIf_ST (c : Bool) (s : State) : (skipIf c s).ST = s.ST := rfl
@[simp] theorem skipIf_key (c : Bool) (s : State) : (skipIf c s).key = s.key := rfl
@[simp] theorem skipIf_fb (c : Bool) (s : State) : (skipIf c s).fb = s.fb := rfl
@[simp] theorem skipIf_fault (c : Bool) (s : State) : (skipIf c s).fault = s.fault := rfl
@[simp] theorem skipIf_draws (c : Bool) (s : State) : (skipIf c s).draws = s.draws := rfl

/-! ## `jumpTo` -/

@[simp] theorem jumpTo_mem (s : State) (a : Word) : (jumpTo s a).mem = s.mem := rfl
@[simp] theorem jumpTo_V (s : State) (a : Word) : (jumpTo s a).V = s.V := rfl
@[simp] theorem jumpTo_I (s : State) (a : Word) : (jumpTo s a).I = s.I := rfl
@[simp] theorem jumpTo_PC (s : State) (a : Word) : (jumpTo s a).PC = a := rfl
@[simp] theorem jumpTo_stack (s : State) (a : Word) : (jumpTo s a).stack = s.stack := rfl
@[simp] theorem jumpTo_SP (s : State) (a : Word) : (jumpTo s a).SP = s.SP := rfl
@[simp] theorem jumpTo_DT (s : State) (a : Word) : (jumpTo s a).DT = s.DT := rfl
@[simp] theorem jumpTo_ST (s : State) (a : Word) : (jumpTo s a).ST = s.ST := rfl
@[simp] theorem jumpTo_key (s : State) (a : Word) : (jumpTo s a).key = s.key := rfl
@[simp] theorem jumpTo_fb (s : State) (a : Word) : (jumpTo s a).fb = s.fb := rfl
@[simp] theorem jumpTo_fault (s : State) (a : Word) : (jumpTo s a).fault = s.fault := rfl
@[simp] theorem jumpTo_draws (s : State) (a : Word) : (jumpTo s a).draws = s.draws := rfl

/-! ## `raiseFault` -/

@[simp] theorem raiseFault_mem (c : FaultCode) (s : State) : (raiseFault c s).mem = s.mem := rfl
@[simp] theorem raiseFault_V (c : FaultCode) (s : State) : (raiseFault c s).V = s.V := rfl
@[simp] theorem raiseFault_I (c : FaultCode) (s : State) : (raiseFault c s).I = s.I := rfl
@[simp] theorem raiseFault_PC (c : FaultCode) (s : State) : (raiseFault c s).PC = s.PC := rfl
@[simp] theorem raiseFault_stack (c : FaultCode) (s : State) : (raiseFault c s).stack = s.stack := rfl
@[simp] theorem raiseFault_SP (c : FaultCode) (s : State) : (raiseFault c s).SP = s.SP := rfl
@[simp] theorem raiseFault_DT (c : FaultCode) (s : State) : (raiseFault c s).DT = s.DT := rfl
@[simp] theorem raiseFault_ST (c : FaultCode) (s : State) : (raiseFault c s).ST = s.ST := rfl
@[simp] theorem raiseFault_key (c : FaultCode) (s : State) : (raiseFault c s).key = s.key := rfl
@[simp] theorem raiseFault_fb (c : FaultCode) (s : State) : (raiseFault c s).fb = s.fb := rfl
@[simp] theorem raiseFault_fault (c : FaultCode) (s : State) : (raiseFault c s).fault = some c := rfl
@[simp] theorem raiseFault_draws (c : FaultCode) (s : State) : (raiseFault c s).draws = s.draws := rfl

/-! ## `tick` -/

@[simp] theorem tick_mem (s : State) : (tick s).mem = s.mem := rfl
@[simp] theorem tick_V (s : State) : (tick s).V = s.V := rfl
@[simp] theorem tick_I (s : State) : (tick s).I = s.I := rfl
@[simp] theorem tick_PC (s : State) : (tick s).PC = s.PC := rfl
@[simp] theorem tick_stack (s : State) : (tick s).stack = s.stack := rfl
@[simp] theorem tick_SP (s : State) : (tick s).SP = s.SP := rfl
@[simp] theorem tick_DT (s : State) : (tick s).DT = tickTimer s.DT := rfl
@[simp] theorem tick_ST (s : State) : (tick s).ST = tickTimer s.ST := rfl
@[simp] theorem tick_key (s : State) : (tick s).key = s.key := rfl
@[simp] theorem tick_fb (s : State) : (tick s).fb = s.fb := rfl
@[simp] theorem tick_fault (s : State) : (tick s).fault = s.fault := rfl
@[simp] theorem tick_draws (s : State) : (tick s).draws = s.draws := rfl

/-! ## `storeBytes` -/

@[simp] theorem storeBytes_mem (s : State) (a : Nat) (bs : List Byte) : (storeBytes s a bs).mem = s.mem.writeBytes a bs := rfl
@[simp] theorem storeBytes_V (s : State) (a : Nat) (bs : List Byte) : (storeBytes s a bs).V = s.V := rfl
@[simp] theorem storeBytes_I (s : State) (a : Nat) (bs : List Byte) : (storeBytes s a bs).I = s.I := rfl
@[simp] theorem storeBytes_PC (s : State) (a : Nat) (bs : List Byte) : (storeBytes s a bs).PC = s.PC := rfl
@[simp] theorem storeBytes_stack (s : State) (a : Nat) (bs : List Byte) : (storeBytes s a bs).stack = s.stack := rfl
@[simp] theorem storeBytes_SP (s : State) (a : Nat) (bs : List Byte) : (storeBytes s a bs).SP = s.SP := rfl
@[simp] theorem storeBytes_DT (s : State) (a : Nat) (bs : List Byte) : (storeBytes s a bs).DT = s.DT := rfl
@[simp] theorem storeBytes_ST (s : State) (a : Nat) (bs : List Byte) : (storeBytes s a bs).ST = s.ST := rfl
@[simp] theorem storeBytes_key (s : State) (a : Nat) (bs : List Byte) : (storeBytes s a bs).key = s.key := rfl
@[simp] theorem storeBytes_fb (s : State) (a : Nat) (bs : List Byte) : (storeBytes s a bs).fb = s.fb := rfl
@[simp] theorem storeBytes_fault (s : State) (a : Nat) (bs : List Byte) : (storeBytes s a bs).fault = s.fault := rfl
@[simp] theorem storeBytes_draws (s : State) (a : Nat) (bs : List Byte) : (storeBytes s a bs).draws = s.draws := rfl

/-! ## `loadRegs` -/

@[simp] theorem loadRegs_mem (s : State) (x : Reg) (a : Nat) : (loadRegs s x a).mem = s.mem := by simp only [loadRegs]
@[simp] theorem loadRegs_V (s : State) (x : Reg) (a : Nat) : (loadRegs s x a).V = loadedRegs s x a := rfl
@[simp] theorem loadRegs_I (s : State) (x : Reg) (a : Nat) : (loadRegs s x a).I = s.I := by simp only [loadRegs]
@[simp] theorem loadRegs_PC (s : State) (x : Reg) (a : Nat) : (loadRegs s x a).PC = s.PC := by simp only [loadRegs]
@[simp] theorem loadRegs_stack (s : State) (x : Reg) (a : Nat) : (loadRegs s x a).stack = s.stack := by simp only [loadRegs]
@[simp] theorem loadRegs_SP (s : State) (x : Reg) (a : Nat) : (loadRegs s x a).SP = s.SP := by simp only [loadRegs]
@[simp] theorem loadRegs_DT (s : State) (x : Reg) (a : Nat) : (loadRegs s x a).DT = s.DT := by simp only [loadRegs]
@[simp] theorem loadRegs_ST (s : State) (x : Reg) (a : Nat) : (loadRegs s x a).ST = s.ST := by simp only [loadRegs]
@[simp] theorem loadRegs_key (s : State) (x : Reg) (a : Nat) : (loadRegs s x a).key = s.key := by simp only [loadRegs]
@[simp] theorem loadRegs_fb (s : State) (x : Reg) (a : Nat) : (loadRegs s x a).fb = s.fb := by simp only [loadRegs]
@[simp] theorem loadRegs_fault (s : State) (x : Reg) (a : Nat) : (loadRegs s x a).fault = s.fault := by simp only [loadRegs]
@[simp] theorem loadRegs_draws (s : State) (x : Reg) (a : Nat) : (loadRegs s x a).draws = s.draws := by simp only [loadRegs]

/-! ## `nextDraw` -/

@[simp] theorem nextDraw_mem (s : State) : (nextDraw s).mem = s.mem := rfl
@[simp] theorem nextDraw_V (s : State) : (nextDraw s).V = s.V := rfl
@[simp] theorem nextDraw_I (s : State) : (nextDraw s).I = s.I := rfl
@[simp] theorem nextDraw_PC (s : State) : (nextDraw s).PC = s.PC := rfl
@[simp] theorem nextDraw_stack (s : State) : (nextDraw s).stack = s.stack := rfl
@[simp] theorem nextDraw_SP (s : State) : (nextDraw s).SP = s.SP := rfl
@[simp] theorem nextDraw_DT (s : State) : (nextDraw s).DT = s.DT := rfl
@[simp] theorem nextDraw_ST (s : State) : (nextDraw s).ST = s.ST := rfl
@[simp] theorem nextDraw_key (s : State) : (nextDraw s).key = s.key := rfl
@[simp] theorem nextDraw_fb (s : State) : (nextDraw s).fb = s.fb := rfl
@[simp] theorem nextDraw_fault (s : State) : (nextDraw s).fault = s.fault := rfl
@[simp] theorem nextDraw_draws (s : State) : (nextDraw s).draws = s.draws + 1 := rfl

/-! ## `writeI` -/

@[simp] theorem writeI_mem (s : State) (a : Word) : (writeI s a).mem = s.mem := rfl
@[simp] theorem writeI_V (s : State) (a : Word) : (writeI s a).V = s.V := rfl
@[simp] theorem writeI_I (s : State) (a : Word) : (writeI s a).I = a := rfl
@[simp] theorem writeI_PC (s : State) (a : Word) : (writeI s a).PC = s.PC := rfl
@[simp] theorem writeI_stack (s : State) (a : Word) : (writeI s a).stack = s.stack := rfl
@[simp] theorem writeI_SP (s : State) (a : Word) : (writeI s a).SP = s.SP := rfl
@[simp] theorem writeI_DT (s : State) (a : Word) : (writeI s a).DT = s.DT := rfl
@[simp] theorem writeI_ST (s : State) (a : Word) : (writeI s a).ST = s.ST := rfl
@[simp] theorem writeI_key (s : State) (a : Word) : (writeI s a).key = s.key := rfl
@[simp] theorem writeI_fb (s : State) (a : Word) : (writeI s a).fb = s.fb := rfl
@[simp] theorem writeI_fault (s : State) (a : Word) : (writeI s a).fault = s.fault := rfl
@[simp] theorem writeI_draws (s : State) (a : Word) : (writeI s a).draws = s.draws := rfl

/-! ## `setKeys` -/

@[simp] theorem setKeys_mem (keys : Vector Bool 16) (s : State) : (setKeys keys s).mem = s.mem := rfl
@[simp] theorem setKeys_V (keys : Vector Bool 16) (s : State) : (setKeys keys s).V = s.V := rfl
@[simp] theorem setKeys_I (keys : Vector Bool 16) (s : State) : (setKeys keys s).I = s.I := rfl
@[simp] theorem setKeys_PC (keys : Vector Bool 16) (s : State) : (setKeys keys s).PC = s.PC := rfl
@[simp] theorem setKeys_stack (keys : Vector Bool 16) (s : State) : (setKeys keys s).stack = s.stack := rfl
@[simp] theorem setKeys_SP (keys : Vector Bool 16) (s : State) : (setKeys keys s).SP = s.SP := rfl
@[simp] theorem setKeys_DT (keys : Vector Bool 16) (s : State) : (setKeys keys s).DT = s.DT := rfl
@[simp] theorem setKeys_ST (keys : Vector Bool 16) (s : State) : (setKeys keys s).ST = s.ST := rfl
@[simp] theorem setKeys_key (keys : Vector Bool 16) (s : State) : (setKeys keys s).key = keys := rfl
@[simp] theorem setKeys_fb (keys : Vector Bool 16) (s : State) : (setKeys keys s).fb = s.fb := rfl
@[simp] theorem setKeys_fault (keys : Vector Bool 16) (s : State) : (setKeys keys s).fault = s.fault := rfl
@[simp] theorem setKeys_draws (keys : Vector Bool 16) (s : State) : (setKeys keys s).draws = s.draws := rfl

end Sys2Proof.Machine
end

