-- ==== Sys2Proof/Laws/Ops.lean ====
section
/-!
SUPPORT. What the shared operations over registers, stack, keys and memory do, once each.
-/

namespace Sys2Proof.Machine

/-! ## Registers -/

@[simp] theorem readV_writeV_same (s : State) (x : Reg) (v : Byte) : readV (writeV s x v) x = v := by
  simp [readV]

theorem readV_writeV_other {r x : Reg} (h : r ≠ x) (s : State) (v : Byte) :
    readV (writeV s x v) r = readV s r := by
  simp only [readV, writeV_V, Fin.getElem_fin]
  exact Vector.getElem_set_ne x.isLt r.isLt (fun e => h (Fin.ext e.symm))

theorem readV_writeV (s : State) (x r : Reg) (v : Byte) :
    readV (writeV s x v) r = if r = x then v else readV s r := by
  split
  · next h => subst h; simp
  · next h => exact readV_writeV_other h s v

/-- A register reads the same in two states with the same register file. -/
theorem readV_congr {s t : State} (h : t.V = s.V) (r : Reg) : readV t r = readV s r := by
  simp [readV, h]

@[simp] theorem readV_advance (s : State) (r : Reg) : readV (advance s) r = readV s r := rfl
@[simp] theorem readV_skipIf (c : Bool) (s : State) (r : Reg) : readV (skipIf c s) r = readV s r := rfl
@[simp] theorem readV_jumpTo (s : State) (a : Word) (r : Reg) : readV (jumpTo s a) r = readV s r := rfl
@[simp] theorem readV_raiseFault (c : FaultCode) (s : State) (r : Reg) : readV (raiseFault c s) r = readV s r := rfl
@[simp] theorem readV_tick (s : State) (r : Reg) : readV (tick s) r = readV s r := rfl
@[simp] theorem readV_storeBytes (s : State) (a : Nat) (bs : List Byte) (r : Reg) :
    readV (storeBytes s a bs) r = readV s r := rfl
@[simp] theorem readV_nextDraw (s : State) (r : Reg) : readV (nextDraw s) r = readV s r := rfl
@[simp] theorem readV_writeI (s : State) (a : Word) (r : Reg) : readV (writeI s a) r = readV s r := rfl
@[simp] theorem readV_setKeys (keys : Vector Bool 16) (s : State) (r : Reg) :
    readV (setKeys keys s) r = readV s r := rfl

/-- Fx65's load: V0 to Vx from memory, the others kept. -/
theorem readV_loadRegs (s : State) (x r : Reg) (a : Nat) :
    readV (loadRegs s x a) r = if r ≤ x then s.mem.read (a + r.val) else readV s r := by
  simp [readV, loadedRegs]

/-- A result and then a flag: VF holds the flag, whatever the destination. -/
@[simp] theorem readV_writeVThenFlag_flag (s : State) (x : Reg) (r : Byte) (f : Bool) :
    readV (writeVThenFlag s x r f) Reg.flag = flagByte f := by
  simp [writeVThenFlag]

theorem readV_writeVThenFlag_dest {x : Reg} (h : x ≠ Reg.flag) (s : State) (r : Byte) (f : Bool) :
    readV (writeVThenFlag s x r f) x = r := by
  simp [writeVThenFlag, readV_writeV_other h]

theorem readV_writeVThenFlag_other {x y : Reg} (hx : y ≠ x) (hf : y ≠ Reg.flag) (s : State) (r : Byte) (f : Bool) :
    readV (writeVThenFlag s x r f) y = readV s y := by
  simp [writeVThenFlag, readV_writeV_other hf, readV_writeV_other hx]

theorem flagByte_toNat (b : Bool) : (flagByte b).toNat = if b then 1 else 0 := by
  cases b <;> rfl

/-! ## Checks -/

/-- A check answers the instruction's state where it holds, and otherwise the fault with all else unchanged. -/
theorem checkElse_cases {cond : Bool} {code : FaultCode} {s t u : State} (h : checkElse cond code s t = .next u) :
    (cond = true ∧ u = t) ∨ (cond = false ∧ u = raiseFault code s) := by
  cases cond <;> simp_all [checkElse]

@[simp] theorem checkElse_true (code : FaultCode) (s t : State) : checkElse true code s t = .next t := rfl
@[simp] theorem checkElse_false (code : FaultCode) (s t : State) :
    checkElse false code s t = .next (raiseFault code s) := rfl

/-! ## Operands as numbers -/

@[simp] theorem targetAddr_toNat (nnn : Imm12) : (targetAddr nnn).toNat = nnn.toNat := by
  simp only [targetAddr, BitVec.toNat_setWidth]
  omega

theorem glyphAddr_toNat {v : Byte} : (glyphAddr v).toNat = 5 * v.toNat := by
  have := v.isLt
  simp only [glyphAddr, BitVec.toNat_ofNat, Config.fontBase, Config.fontGlyphBytes]
  omega

@[simp] theorem bcdDigits_length (v : Byte) : (bcdDigits v).length = 3 := rfl

@[simp] theorem regsUpTo_length (s : State) (x : Reg) : (regsUpTo s x).length = x.val + 1 := by
  have := x.isLt
  simp only [regsUpTo, List.length_take, Vector.length_toList]
  omega

theorem regsUpTo_getElem (s : State) (x k : Reg) (h : k ≤ x) :
    (regsUpTo s x)[k.val]'(by rw [regsUpTo_length]; have : k.val ≤ x.val := h; omega) = readV s k := by
  simp [regsUpTo, readV]

theorem indexInRange_iff (s : State) (last : Nat) : indexInRange s last = true ↔ s.I.toNat + last ≤ 0xFFF := by
  unfold indexInRange indexAddr
  exact decide_eq_true_iff

theorem inSixteen_iff (v : Byte) : inSixteen v = true ↔ v.toNat ≤ 0xF := by
  simp [inSixteen]

/-- A key number below 16 names that key. -/
theorem keyDown_eq {v : Byte} {k : Fin 16} (h : v.toNat = k.val) (s : State) : keyDown s v = s.key[k] := by
  have : v.toNat % 16 = k.val := by omega
  simp [keyDown, this]

/-! ## The stack -/

/-- A push: room below 16, the slot written, the count one up, all else kept. -/
theorem push?_cases {s t : State} {a : Word} (h : push? s a = some t) :
    ∃ lt : s.SP.val < 16, t = { s with stack := s.stack.set s.SP.val a, SP := ⟨s.SP.val + 1, by omega⟩ } := by
  unfold push? at h
  split at h
  · next lt => exact ⟨lt, (Option.some.inj h).symm⟩
  · cases h

theorem push?_full {s : State} (h : s.SP = 16) (a : Word) : push? s a = none := by
  simp [push?, h]

/-- A pop: a slot in use, its value, the count one down, all else kept, the slot too. -/
theorem pop?_cases {s t : State} {a : Word} (h : pop? s = some (a, t)) :
    ∃ lt : 0 < s.SP.val, a = s.stack[s.SP.val - 1]'(by omega) ∧ t = { s with SP := ⟨s.SP.val - 1, by omega⟩ } := by
  unfold pop? at h
  split at h
  · next lt =>
    obtain ⟨rfl, rfl⟩ := Prod.mk.inj (Option.some.inj h)
    exact ⟨lt, rfl, rfl⟩
  · cases h

theorem pop?_empty {s : State} (h : s.SP = 0) : pop? s = none := by
  simp [pop?, h]

/-! ## Keys -/

/-- The lowest key found is pressed, and none below it is. -/
theorem lowestKey?_some {s : State} {k : Fin 16} (h : lowestKey? s = some k) :
    s.key[k] = true ∧ ∀ j < k, s.key[j] = false := by
  obtain ⟨hk, as, bs, e, hl⟩ := List.find?_eq_some_iff_append.1 h
  refine ⟨hk, fun j hj => ?_⟩
  have hs : (List.finRange 16).Pairwise (· < ·) := by decide
  rw [e, List.pairwise_append] at hs
  have hm : j ∈ as ++ k :: bs := e ▸ List.mem_finRange j
  rcases List.mem_append.1 hm with hm | hm
  · simpa using hl j hm
  · rcases List.mem_cons.1 hm with rfl | hm
    · exact absurd hj (Fin.lt_irrefl _)
    · exact absurd (Fin.lt_trans hj ((List.pairwise_cons.1 hs.2.1).1 j hm)) (Fin.lt_irrefl _)

/-- No key is found exactly when none is pressed. -/
theorem lowestKey?_none {s : State} : lowestKey? s = none ↔ ∀ k : Fin 16, s.key[k] = false := by
  simp [lowestKey?]

/-! ## Timers -/

/-- A tick takes one off and stops at zero. -/
theorem tickTimer_toNat (t : Byte) : (tickTimer t).toNat = t.toNat - 1 := by
  unfold tickTimer
  split
  · next h => subst h; rfl
  · next h =>
    have : t.toNat ≠ 0 := fun e => h (BitVec.eq_of_toNat_eq e)
    have := t.isLt
    rw [BitVec.toNat_sub, show (1 : Byte).toNat = 1 from rfl]
    omega

/-! ## The frame buffer -/

/-- Setting one pixel sets that pixel and no other. -/
theorem FrameBuffer.pixel_setPixel (fb : FrameBuffer) (y y' : Fin 32) (x x' : Fin 64) (b : Bool) :
    (fb.setPixel y x b).pixel y' x' = if y' = y ∧ x' = x then b else fb.pixel y' x' := by
  simp only [FrameBuffer.pixel, FrameBuffer.setPixel, Fin.getElem_fin, Vector.getElem_set, Fin.ext_iff]
  split
  · simp only [Vector.getElem_set]
    split <;> simp_all [eq_comm]
  · next h => simp [Ne.symm h, eq_comm]

@[simp] theorem FrameBuffer.pixel_clear (y : Fin 32) (x : Fin 64) : FrameBuffer.clear.pixel y x = false := by
  simp [FrameBuffer.pixel, FrameBuffer.clear]

end Sys2Proof.Machine
end

