-- ==== Sys2Proof/Laws/PerInstr.lean ====
section
/-!
SUPPORT. The family `EncodesToKnownWord`: the word of every instruction is none of those R68 lists as unknown.
-/

namespace Sys2Proof.Laws.EncodesToKnownWord

/-- The instruction's word passes `wordWellFormed` (30_encoding.md R66, R68), which is written apart from the
encoder. -/
def Statement (i : Instr) : Prop := wordWellFormed (encode i) = true

/-! What the check looks at, in a word of each format. -/

theorem formNnn_known {f : Nibble} (nnn : Imm12) (hf : 0 < f.toNat)
    (h : ∀ n nn, subOpcodeKnown f.toNat n nn = true) : wordWellFormed (formNnn f nnn) = true := by
  have e : (formNnn f nnn).toNat / 0x1000 = f.toNat := by rw [formNnn_toNat]; omega
  rw [wordWellFormed, e, if_neg (by omega)]
  exact h _ _

theorem formXnn_known {f : Nibble} (x : Reg) {nn : Byte} (hf : 0 < f.toNat)
    (h : ∀ n, subOpcodeKnown f.toNat n nn.toNat = true) : wordWellFormed (formXnn f x nn) = true := by
  have e : (formXnn f x nn).toNat / 0x1000 = f.toNat := by rw [formXnn_toNat]; omega
  have e' : (formXnn f x nn).toNat % 0x100 = nn.toNat := by rw [formXnn_toNat]; omega
  rw [wordWellFormed, e, e', if_neg (by omega)]
  exact h _

theorem formXyn_known {f : Nibble} (x y : Reg) {n : Nibble} (hf : 0 < f.toNat)
    (h : ∀ nn, subOpcodeKnown f.toNat n.toNat nn = true) : wordWellFormed (formXyn f x y n) = true := by
  have e : (formXyn f x y n).toNat / 0x1000 = f.toNat := by rw [formXyn_toNat]; omega
  have e' : (formXyn f x y n).toNat % 0x10 = n.toNat := by rw [formXyn_toNat]; omega
  rw [wordWellFormed, e, e', if_neg (by omega)]
  exact h _

/-! One lemma per instruction. -/

theorem cls : Statement .cls := by unfold Statement; decide
theorem ret : Statement .ret := by unfold Statement; decide
theorem jpNnn (nnn : Imm12) : Statement (.jpNnn nnn) := formNnn_known nnn (by decide) (fun _ _ => rfl)
theorem callNnn (nnn : Imm12) : Statement (.callNnn nnn) := formNnn_known nnn (by decide) (fun _ _ => rfl)
theorem seVxNn (x : Reg) (nn : Byte) : Statement (.seVxNn x nn) := formXnn_known x (by decide) (fun _ => rfl)
theorem sneVxNn (x : Reg) (nn : Byte) : Statement (.sneVxNn x nn) := formXnn_known x (by decide) (fun _ => rfl)
theorem seVxVy (x y : Reg) : Statement (.seVxVy x y) := formXyn_known x y (by decide) (fun _ => rfl)
theorem ldVxNn (x : Reg) (nn : Byte) : Statement (.ldVxNn x nn) := formXnn_known x (by decide) (fun _ => rfl)
theorem addVxNn (x : Reg) (nn : Byte) : Statement (.addVxNn x nn) := formXnn_known x (by decide) (fun _ => rfl)
theorem ldVxVy (x y : Reg) : Statement (.ldVxVy x y) := formXyn_known x y (by decide) (fun _ => rfl)
theorem orVxVy (x y : Reg) : Statement (.orVxVy x y) := formXyn_known x y (by decide) (fun _ => rfl)
theorem andVxVy (x y : Reg) : Statement (.andVxVy x y) := formXyn_known x y (by decide) (fun _ => rfl)
theorem xorVxVy (x y : Reg) : Statement (.xorVxVy x y) := formXyn_known x y (by decide) (fun _ => rfl)
theorem addVxVy (x y : Reg) : Statement (.addVxVy x y) := formXyn_known x y (by decide) (fun _ => rfl)
theorem subVxVy (x y : Reg) : Statement (.subVxVy x y) := formXyn_known x y (by decide) (fun _ => rfl)
theorem shrVx (x y : Reg) : Statement (.shrVx x y) := formXyn_known x y (by decide) (fun _ => rfl)
theorem subnVxVy (x y : Reg) : Statement (.subnVxVy x y) := formXyn_known x y (by decide) (fun _ => rfl)
theorem shlVx (x y : Reg) : Statement (.shlVx x y) := formXyn_known x y (by decide) (fun _ => rfl)
theorem sneVxVy (x y : Reg) : Statement (.sneVxVy x y) := formXyn_known x y (by decide) (fun _ => rfl)
theorem ldINnn (nnn : Imm12) : Statement (.ldINnn nnn) := formNnn_known nnn (by decide) (fun _ _ => rfl)
theorem jpV0Nnn (nnn : Imm12) : Statement (.jpV0Nnn nnn) := formNnn_known nnn (by decide) (fun _ _ => rfl)
theorem rndVxNn (x : Reg) (nn : Byte) : Statement (.rndVxNn x nn) := formXnn_known x (by decide) (fun _ => rfl)
theorem drwVxVyN (x y : Reg) (n : Nibble) : Statement (.drwVxVyN x y n) := formXyn_known x y (by decide) (fun _ => rfl)
theorem skpVx (x : Reg) : Statement (.skpVx x) := formXnn_known x (by decide) (fun _ => rfl)
theorem sknpVx (x : Reg) : Statement (.sknpVx x) := formXnn_known x (by decide) (fun _ => rfl)
theorem ldVxDt (x : Reg) : Statement (.ldVxDt x) := formXnn_known x (by decide) (fun _ => rfl)
theorem ldVxK (x : Reg) : Statement (.ldVxK x) := formXnn_known x (by decide) (fun _ => rfl)
theorem ldDtVx (x : Reg) : Statement (.ldDtVx x) := formXnn_known x (by decide) (fun _ => rfl)
theorem ldStVx (x : Reg) : Statement (.ldStVx x) := formXnn_known x (by decide) (fun _ => rfl)
theorem addIVx (x : Reg) : Statement (.addIVx x) := formXnn_known x (by decide) (fun _ => rfl)
theorem ldFVx (x : Reg) : Statement (.ldFVx x) := formXnn_known x (by decide) (fun _ => rfl)
theorem ldBVx (x : Reg) : Statement (.ldBVx x) := formXnn_known x (by decide) (fun _ => rfl)
theorem ldMemVx (x : Reg) : Statement (.ldMemVx x) := formXnn_known x (by decide) (fun _ => rfl)
theorem ldVxMem (x : Reg) : Statement (.ldVxMem x) := formXnn_known x (by decide) (fun _ => rfl)

end Sys2Proof.Laws.EncodesToKnownWord
end

