-- ==== Sys2Proof/Laws/Step.lean ====
section
/-!
SUPPORT. What one step can do, said once: later proofs cite `step_cases` and `exec_next` and do not unfold the step.
-/

namespace Sys2Proof.Machine

/-- Every meaning answers a next state, in every state. -/
theorem exec_next (i : Instr) (s : State) : ∃ t, exec i s = .next t := by
  cases i <;> simp only [exec, execCls, execJpNnn, execSeVxNn, execSneVxNn, execSeVxVy, execSneVxVy, execLdVxNn,
    execAddVxNn, execLdVxVy, execOrVxVy, execAndVxVy, execXorVxVy, execAddVxVy, execSubVxVy, execShrVx, execSubnVxVy,
    execShlVx, execLdINnn, execJpV0Nnn, execRndVxNn, execDrwVxVyN, execSkpVx, execSknpVx, execLdVxDt, execLdDtVx,
    execLdStVx, execAddIVx, execLdFVx, execLdBVx, execLdMemVx, execLdVxMem, setReg, setRegFlag, checkElse,
    Host.Outcome.next.injEq, exists_eq']
  case ret => unfold execRet; split <;> exact ⟨_, rfl⟩
  case callNnn => unfold execCallNnn; split <;> exact ⟨_, rfl⟩
  case ldVxK => unfold execLdVxK; split <;> exact ⟨_, rfl⟩

/-- The word at `PC` is the two bytes there, joined big-endian. -/
theorem fetchWord_eq (s : State) : fetchWord s = wordOfBytes (s.mem.read s.PC.toNat) (s.mem.read (s.PC.toNat + 1)) := rfl

theorem fetchInRange_iff (s : State) : fetchInRange s = true ↔ s.PC.toNat ≤ 0xFFE := by
  simp [fetchInRange]

/-- A stopped core takes no step. -/
theorem step_stopped {s : State} {c : FaultCode} (h : s.fault = some c) : step s = .fault (.stopped c) := by
  simp [step, cycle, h]

/-- A fetch outside memory. -/
theorem step_fetch_fault {s : State} (h : s.running) (hp : 0xFFE < s.PC.toNat) :
    step s = .next (raiseFault .pcOutOfRange s) := by
  have : fetchInRange s = false := by simp [fetchInRange]; omega
  simp [step, cycle, runCycle, this, show s.fault = none from h]

/-- The next cycle executes one instruction at most. -/
theorem executes_unique {s : State} {i j : Instr} (h : Executes s i) (h' : Executes s j) : i = j :=
  Decoded.instr.inj (h.2.2.symm.trans h'.2.2)

/-- The cycle of an instruction: its meaning, and the end of the cycle. -/
theorem step_executes {s : State} {i : Instr} (h : Executes s i) : step s = endResult (exec i s) := by
  simp [step, cycle, runCycle, show s.fault = none from h.1, (fetchInRange_iff s).2 h.2.1, h.2.2]

/-- The cycle of an unknown opcode: `PC + 2`, and the tick. -/
theorem step_unknown {s : State} {op : Word} (h : s.running) (hp : s.PC.toNat ≤ 0xFFE)
    (hd : decode (fetchWord s) = .unknown op) : step s = .next (tick (advance s)) := by
  simp [step, cycle, runCycle, show s.fault = none from h, (fetchInRange_iff s).2 hp, hd, execUnknown, endCycle]

/-- What a step that answers a next state can have done: the fetch fault; an unknown opcode; an instruction that
raised a fault; or an instruction and the tick. -/
theorem step_cases {s t : State} (h : step s = .next t) :
    s.running ∧
    ((0xFFE < s.PC.toNat ∧ t = raiseFault .pcOutOfRange s) ∨
     (s.PC.toNat ≤ 0xFFE ∧ (∃ op, decode (fetchWord s) = .unknown op) ∧ t = tick (advance s)) ∨
     (∃ i u, Executes s i ∧ exec i s = .next u ∧ ((u.running ∧ t = tick u) ∨ (¬ u.running ∧ t = u)))) := by
  rcases hf : s.fault with _ | c
  · refine ⟨hf, ?_⟩
    by_cases hp : s.PC.toNat ≤ 0xFFE
    · rcases hd : decode (fetchWord s) with i | op
      · obtain ⟨u, hu⟩ := exec_next i s
        rw [step_executes ⟨hf, hp, hd⟩, hu] at h
        refine .inr (.inr ⟨i, u, ⟨hf, hp, hd⟩, hu, ?_⟩)
        have e := Host.Outcome.next.inj h
        rcases hu' : u.fault with _ | c
        · exact .inl ⟨hu', by simpa [endCycle, hu'] using e.symm⟩
        · exact .inr ⟨by simp [hu'], by simpa [endCycle, hu'] using e.symm⟩
      · rw [step_unknown hf hp hd] at h
        exact .inr (.inl ⟨hp, ⟨op, rfl⟩, (Host.Outcome.next.inj h).symm⟩)
    · rw [step_fetch_fault hf (by omega)] at h
      exact .inl ⟨by omega, (Host.Outcome.next.inj h).symm⟩
  · rw [step_stopped hf] at h
    cases h

end Sys2Proof.Machine
end

