-- ==== Sys2Proof/Tests/Slice0.lean ====
section
/-!
SUPPORT. The model's own tests. Expected values are those of spec/95_test_vectors.md, named by the vector's id, or are
worked out from the rule cited. Every step test is one cycle of a small state: reset, a word at the next fetch, and the few
registers named. At the end, a witness for the hypotheses of each statement that has some, at a boundary where there
is one.
-/

namespace Sys2Proof.Tests

open Sys2Proof.Machine

/-! ## Builders -/

/-- The answer is a next state with the property. -/
def after (r : Result) (p : State → Bool) : Bool :=
  match r with
  | .next t => p t
  | _ => false

/-- Reset, with the named registers set. -/
def regs (rs : List (Reg × Byte)) : State := rs.foldl (fun s r => writeV s r.1 r.2) State.reset

/-- One cycle of the word from the state, and a property of what it leaves. -/
def cycle1 (w : Nat) (s : State) (p : State → Bool) : Bool := after (step (s.withFetchWord 16 w)) p

/-- The cycle raises the fault, `PC` stays at 0x200 and the timers do not tick. -/
def faults (w : Nat) (s : State) (c : FaultCode) : Bool :=
  cycle1 w { s with DT := 3 } fun t => t.fault == some c && t.PC == 0x200 && t.DT == 3

/-! ## Well-formedness: one ill-formed term for each check -/

theorem test_ill_formed_words :
    [0x0123, 0x0000, 0x00E1, 0x5121, 0x900F, 0x8128, 0x812F, 0xE1FF, 0xF1FF, 0xF000].all
      (fun w => !wordWellFormed (BitVec.ofNat 16 w)) = true := by decide

theorem test_well_formed_words :
    [0x00E0, 0x00EE, 0x1FFF, 0x5120, 0x9110, 0x8127, 0x812E, 0xE19E, 0xF165].all
      (fun w => wordWellFormed (BitVec.ofNat 16 w)) = true := by decide

theorem test_ill_formed_image : imageWellFormed (List.replicate 3585 0) = false := by
  rw [imageWellFormed, List.length_replicate]; decide

theorem test_well_formed_image {v : Byte} : imageWellFormed (List.replicate 3584 v) = true := by
  rw [imageWellFormed, List.length_replicate]; decide

theorem test_ill_formed_memory_order : ¬ Memory.wf [(0x301, 1), (0x300, 2)] := by decide
theorem test_ill_formed_memory_default : ¬ Memory.wf [(0x000, 0xF0)] := by decide
theorem test_ill_formed_memory_address : ¬ Memory.wf [(0x1000, 1)] := by decide
theorem test_well_formed_memory : Memory.wf [(0x000, 0xF1), (0xFFF, 1)] := by decide

/-! ## Decoding: words written out from R65's patterns -/

theorem test_decode_control :
    decode 0x00EE = .instr .ret ∧ decode 0x1234 = .instr (.jpNnn 0x234) ∧ decode 0x2300 = .instr (.callNnn 0x300) ∧
    decode 0x3342 = .instr (.seVxNn 3 0x42) ∧ decode 0x4300 = .instr (.sneVxNn 3 0) ∧
    decode 0x5120 = .instr (.seVxVy 1 2) ∧ decode 0x9120 = .instr (.sneVxVy 1 2) ∧
    decode 0xB2F8 = .instr (.jpV0Nnn 0x2F8) := by decide

theorem test_decode_alu :
    decode 0x6A42 = .instr (.ldVxNn 0xA 0x42) ∧ decode 0x7002 = .instr (.addVxNn 0 2) ∧
    decode 0x8120 = .instr (.ldVxVy 1 2) ∧ decode 0x8121 = .instr (.orVxVy 1 2) ∧
    decode 0x8122 = .instr (.andVxVy 1 2) ∧ decode 0x8123 = .instr (.xorVxVy 1 2) ∧
    decode 0x8014 = .instr (.addVxVy 0 1) ∧ decode 0x8125 = .instr (.subVxVy 1 2) ∧
    decode 0x8126 = .instr (.shrVx 1 2) ∧ decode 0x8127 = .instr (.subnVxVy 1 2) ∧
    decode 0x812E = .instr (.shlVx 1 2) ∧ decode 0xC30F = .instr (.rndVxNn 3 0x0F) := by decide

theorem test_decode_index :
    decode 0xA2F0 = .instr (.ldINnn 0x2F0) ∧ decode 0xF11E = .instr (.addIVx 1) ∧ decode 0xF029 = .instr (.ldFVx 0) ∧
    decode 0xF333 = .instr (.ldBVx 3) ∧ decode 0xF255 = .instr (.ldMemVx 2) ∧
    decode 0xF265 = .instr (.ldVxMem 2) := by decide

theorem test_decode_display :
    decode 0x00E0 = .instr .cls ∧ decode 0xD125 = .instr (.drwVxVyN 1 2 5) := by decide

theorem test_decode_keypad_timers :
    decode 0xE29E = .instr (.skpVx 2) ∧ decode 0xE2A1 = .instr (.sknpVx 2) ∧ decode 0xF307 = .instr (.ldVxDt 3) ∧
    decode 0xF30A = .instr (.ldVxK 3) ∧ decode 0xF115 = .instr (.ldDtVx 1) ∧
    decode 0xF118 = .instr (.ldStVx 1) := by decide

/-- The rows of the table, R65: 34, with no word in two of them. -/
theorem test_table_rows_disjoint :
    opcodeTable.length = 34 ∧
    opcodeTable.Pairwise (fun r r' => r.value &&& r'.mask ≠ r'.value &&& r.mask) := by decide

theorem test_decode_table_word : decodeTableWord 16 0x8014 = some (.addVxVy 0 1) ∧ decodeTableWord 16 0x0123 = none := by
  decide

/-! ## The cycle (vectors TF, TU) -/

theorem test_TF1_fetch_fault :
    after (step { State.reset with PC := 0xFFF, DT := 3 })
      (fun t => t.fault == some .pcOutOfRange && t.PC == 0xFFF && t.DT == 3) = true := by decide

theorem test_TF3_last_fetch :
    cycle1 0x00E0 { State.reset with PC := 0xFFE } (fun t => t.PC == 0x1000 && t.fault.isNone) = true := by decide

theorem test_TF4_both_timers_tick :
    cycle1 0x6000 { State.reset with DT := 1, ST := 2 } (fun t => t.PC == 0x202 && t.DT == 0 && t.ST == 1) = true := by
  decide

theorem test_TF6_no_step_after_a_fault :
    (match step { State.reset with fault := some .stackUnderflow, DT := 5 } with
      | .fault (.stopped .stackUnderflow) => true
      | _ => false) = true := by decide

theorem test_TU4_unknown_is_passed_over :
    cycle1 0x5121 { regs [(1, 1), (2, 1)] with DT := 3 } (fun t => t.PC == 0x202 && t.DT == 2) = true ∧
    reportOut (State.reset.withFetchWord 16 0x5121) = some ⟨0x200, 0x5121⟩ := by decide

/-! ## Control flow (vectors TC) -/

theorem test_TC2_ret :
    cycle1 0x00EE { State.reset with SP := 2, stack := (State.reset.stack.set 0 0x204).set 1 0x20A }
      (fun t => t.SP == 1 && t.PC == 0x20A && t.stack[1] == 0x20A) = true := by decide
theorem test_TC3_ret_underflow : faults 0x00EE State.reset .stackUnderflow = true := by decide
theorem test_TC4_jp : cycle1 0x1234 State.reset (fun t => t.PC == 0x234) = true := by decide
theorem test_TC8_sixteenth_call :
    cycle1 0x2300 { State.reset with SP := 15 } (fun t => t.SP == 16 && t.stack[15] == 0x202 && t.PC == 0x300) = true := by
  decide
theorem test_TC9_seventeenth_call : faults 0x2300 { State.reset with SP := 16 } .stackOverflow = true := by decide
theorem test_TC11_se_taken : cycle1 0x3342 (regs [(3, 0x42)]) (fun t => t.PC == 0x204) = true := by decide
theorem test_TC12_se_not_taken : cycle1 0x3343 (regs [(3, 0x42)]) (fun t => t.PC == 0x202) = true := by decide
theorem test_TC13_sne_not_taken : cycle1 0x4342 (regs [(3, 0x42)]) (fun t => t.PC == 0x202) = true := by decide
theorem test_TC14_sne_taken : cycle1 0x4300 (regs [(3, 0x42)]) (fun t => t.PC == 0x204) = true := by decide
theorem test_TC15_se_regs : cycle1 0x5120 (regs [(1, 7), (2, 7)]) (fun t => t.PC == 0x204) = true := by decide
theorem test_TC16_se_regs : cycle1 0x5120 (regs [(1, 7), (2, 8)]) (fun t => t.PC == 0x202) = true := by decide
theorem test_TC18_sne_regs : cycle1 0x9120 (regs [(1, 7), (2, 8)]) (fun t => t.PC == 0x204) = true := by decide
theorem test_TC19_sne_regs : cycle1 0x9120 (regs [(1, 7), (2, 7)]) (fun t => t.PC == 0x202) = true := by decide
theorem test_TC21_jp_v0 : cycle1 0xB2F8 (regs [(0, 0x10)]) (fun t => t.PC == 0x308) = true := by decide
theorem test_TC22_jp_v0_masked : cycle1 0xBFFF (regs [(0, 0xFF)]) (fun t => t.PC == 0x0FE) = true := by decide

/-! ## Registers, arithmetic and logic (vectors TA) -/

theorem test_TA1_ld : cycle1 0x6A42 State.reset (fun t => t.V[0xA] == 0x42 && t.PC == 0x202) = true := by decide
theorem test_TA3_add_wraps_no_flag :
    cycle1 0x7002 (regs [(0, 0xFF), (15, 0x33)]) (fun t => t.V[0] == 1 && t.V[15] == 0x33) = true := by decide
theorem test_TA4_add_to_vf : cycle1 0x7F01 (regs [(15, 0xFF)]) (fun t => t.V[15] == 0) = true := by decide
theorem test_TA5_copy : cycle1 0x8010 (regs [(1, 9)]) (fun t => t.V[0] == 9 && t.V[1] == 9) = true := by decide
theorem test_TA6_or :
    cycle1 0x8011 (regs [(0, 0xF0), (1, 0x0F), (15, 7)]) (fun t => t.V[0] == 0xFF && t.V[15] == 7) = true := by decide
theorem test_TA7_and :
    cycle1 0x8012 (regs [(0, 0xF0), (1, 0x3C), (15, 7)]) (fun t => t.V[0] == 0x30 && t.V[15] == 7) = true := by decide
theorem test_TA8_xor :
    cycle1 0x8013 (regs [(0, 0xF0), (1, 0x3C), (15, 7)]) (fun t => t.V[0] == 0xCC && t.V[15] == 7) = true := by decide
theorem test_TA10_add_carry_at_256 :
    cycle1 0x8014 (regs [(0, 0x80), (1, 0x80)]) (fun t => t.V[0] == 0 && t.V[15] == 1) = true := by decide
theorem test_TA13_add_flag_written_last :
    cycle1 0x8F14 (regs [(15, 0x10), (1, 0xF0)]) (fun t => t.V[15] == 1) = true := by decide
theorem test_S3_sub_borrows :
    cycle1 0x8015 (regs [(0, 5), (1, 10)]) (fun t => t.V[0] == 251 && t.V[15] == 0) = true := by decide
theorem test_TA15_sub_equal :
    cycle1 0x8015 (regs [(0, 7), (1, 7)]) (fun t => t.V[0] == 0 && t.V[15] == 1) = true := by decide
theorem test_TA19_shr_ignores_y :
    cycle1 0x8016 (regs [(0, 4), (1, 0xFF)]) (fun t => t.V[0] == 2 && t.V[15] == 0) = true := by decide
theorem test_TA20_shr_vf : cycle1 0x8F06 (regs [(15, 3)]) (fun t => t.V[15] == 1) = true := by decide
theorem test_TA21_subn_borrows :
    cycle1 0x8017 (regs [(0, 0x0A), (1, 5)]) (fun t => t.V[0] == 0xFB && t.V[15] == 0) = true := by decide
theorem test_TA23_subn_equal :
    cycle1 0x8017 (regs [(0, 9), (1, 9)]) (fun t => t.V[0] == 0 && t.V[15] == 1) = true := by decide
theorem test_TA24_shl : cycle1 0x800E (regs [(0, 0x81)]) (fun t => t.V[0] == 2 && t.V[15] == 1) = true := by decide
theorem test_TA26_shl_bit_5_is_no_flag :
    cycle1 0x800E (regs [(0, 0x20)]) (fun t => t.V[0] == 0x40 && t.V[15] == 0) = true := by decide

/-- TA30: with mask 0 the result is 0 whatever the draw, so the test needs no value of it. -/
theorem test_TA30_rnd_mask_zero :
    after (step ((regs [(3, 9)]).withFetchWord 16 0xC300)) (fun t => t.PC == 0x202 && t.draws == 1) = true := by decide

/-! ## Index register and memory transfers (vectors TM) -/

theorem test_TM1_ld_i : cycle1 0xA2F0 State.reset (fun t => t.I == 0x2F0 && t.PC == 0x202) = true := by decide
theorem test_TM4_add_i_past_memory :
    cycle1 0xF11E { regs [(1, 1)] with I := 0xFFF } (fun t => t.I == 0x1000 && t.V[15] == 1) = true := by decide
theorem test_TM7_add_i_old_vf :
    cycle1 0xFF1E { regs [(15, 1)] with I := 0x100 } (fun t => t.I == 0x101 && t.V[15] == 0) = true := by decide
theorem test_TM8_ld_f : cycle1 0xF029 (regs [(0, 0xA)]) (fun t => t.I == 0x032) = true := by decide
theorem test_TM11_ld_f_faults : faults 0xF029 (regs [(0, 0x10)]) .fontDigitOutOfRange = true := by decide
theorem test_TM12_bcd :
    cycle1 0xF033 { regs [(0, 254)] with I := 0x300 }
      (fun t => t.mem.readBytes 0x300 3 == [2, 5, 4] && t.I == 0x300 && t.PC == 0x202) = true := by decide
theorem test_TM16_bcd_faults : faults 0xF033 { regs [(0, 9)] with I := 0xFFE } .indexOutOfRange = true := by decide
theorem test_TM17_store :
    cycle1 0xF255 { regs [(0, 1), (1, 2), (2, 3), (3, 4)] with I := 0x400 }
      (fun t => t.mem.readBytes 0x400 4 == [1, 2, 3, 0] && t.I == 0x400) = true := by decide
theorem test_TM20_store_faults : faults 0xFF55 { State.reset with I := 0xFF1 } .indexOutOfRange = true := by decide
theorem test_TM22_load :
    cycle1 0xF265 { State.reset with I := 0x300, mem := Memory.writeBytes [] 0x300 [2, 5, 4, 9] }
      (fun t => t.V[0] == 2 && t.V[1] == 5 && t.V[2] == 4 && t.V[3] == 0 && t.I == 0x300) = true := by decide
theorem test_TM24_load_faults : faults 0xF165 { State.reset with I := 0x1000 } .indexOutOfRange = true := by decide

/-! ## Display (vectors TD) -/

theorem test_TD1_cls :
    cycle1 0x00E0 { State.reset with fb := (State.reset.fb.setPixel 0 0 true).setPixel 31 63 true }
      (fun t => !t.fb.pixel 0 0 && !t.fb.pixel 31 63 && t.PC == 0x202) = true := by decide
theorem test_TD3_draw_collides :
    cycle1 0xD015 { State.reset with fb := State.reset.fb.setPixel 0 0 true }
      (fun t => !t.fb.pixel 0 0 && t.fb.pixel 0 3 && t.fb.pixel 1 0 && !t.fb.pixel 1 1 && t.fb.pixel 4 3 &&
        t.V[15] == 1) = true := by decide
theorem test_TD4_draw_wraps :
    cycle1 0xD011 { regs [(0, 0x7C), (1, 0x21)] with I := 0x300, mem := Memory.writeBytes [] 0x300 [0xFF] }
      (fun t => t.fb.pixel 1 60 && t.fb.pixel 1 63 && t.fb.pixel 1 0 && t.fb.pixel 1 3 && !t.fb.pixel 1 4 &&
        t.V[15] == 0) = true := by decide
theorem test_TD7_draw_faults : faults 0xD012 { State.reset with I := 0xFFF } .indexOutOfRange = true := by decide

/-! ## Keypad and timers (vectors TK) -/

theorem test_TK1_skp : cycle1 0xE29E { regs [(2, 5)] with key := State.reset.key.set 5 true } (fun t => t.PC == 0x204) = true := by
  decide
theorem test_TK5_skp_faults :
    faults 0xE29E { regs [(2, 0x10)] with key := State.reset.key.set 0 true } .keyIndexOutOfRange = true := by decide
theorem test_TK3_sknp : cycle1 0xE2A1 (regs [(2, 5)]) (fun t => t.PC == 0x204) = true := by decide
theorem test_TK6_sknp_pressed :
    cycle1 0xEFA1 { regs [(15, 0xF)] with key := State.reset.key.set 15 true } (fun t => t.PC == 0x202) = true := by decide
theorem test_TK7_read_delay :
    cycle1 0xF307 { State.reset with DT := 7 } (fun t => t.V[3] == 7 && t.DT == 6 && t.PC == 0x202) = true := by decide
theorem test_TK10_set_delay : cycle1 0xF015 (regs [(0, 3)]) (fun t => t.DT == 2 && t.PC == 0x202) = true := by decide
theorem test_TK13_set_sound : cycle1 0xF018 (regs [(0, 0xA)]) (fun t => t.ST == 9 && soundActive t) = true := by decide
theorem test_TK14_set_sound_one : cycle1 0xF018 (regs [(0, 1)]) (fun t => t.ST == 0 && !soundActive t) = true := by decide
theorem test_TK15_wait_stalls :
    cycle1 0xF30A { regs [(3, 6)] with DT := 4, ST := 1 }
      (fun t => t.PC == 0x200 && t.DT == 3 && t.ST == 0 && t.V[3] == 6) = true := by decide
theorem test_TK16_wait_lowest :
    cycle1 0xF30A { State.reset with key := (State.reset.key.set 9 true).set 7 true }
      (fun t => t.V[3] == 7 && t.PC == 0x202 && t.key[7]) = true := by decide

/-! ## Ports -/

/-- P7 of the spec: `fault_out` shows the code, the call's address and its word. -/
theorem test_P7_fault_out :
    cycle1 0x2200 { State.reset with SP := 16 }
      (fun t => faultOut t == some ⟨.stackOverflow, 0x200, some 0x2200⟩) = true := by decide
theorem test_load_port :
    after (loadProgram [0x12, 0x00] State.reset) (fun t => fetchWord t == 0x1200 && t.PC == 0x200) = true := by decide
theorem test_run_end_self_jump : runEnd? (State.reset.withFetchWord 16 0x1200) = some .selfJump := by decide

/-! ## Witnesses: a state and operands that meet the hypotheses of each statement that has some, clause by clause -/

/-- Reset with the word at 0x200, as a state. -/
abbrev at200 (w : Nat) (s : State := State.reset) : State := s.withFetchWord 16 w

theorem witness_EncodeOfDecodeIsTheWord : decode 0x8FFE = .instr (.shlVx 15 15) := by decide

theorem witness_TheRowThatMatchesIsDecoded :
    opcodeTable[13]? = some ⟨"ADD_Vx__Vy", 0xF00F, 0x8004⟩ ∧ (0x8FF4 : Word) &&& 0xF00F = 0x8004 ∧
    decode 0x8FF4 = .instr (.addVxVy 15 15) ∧ (∀ r ∈ opcodeTable, (0x8FF8 : Word) &&& r.mask ≠ r.value) := by decide

theorem witness_StepRunsTheFetchedInstruction :
    let s := at200 0x2FFF { State.reset with PC := 0xFFE }
    s.fault = none ∧ s.PC.toNat ≤ 0xFFE ∧
    decodeBytes (s.mem.read s.PC.toNat) (s.mem.read (s.PC.toNat + 1)) = .instr (.callNnn 0xFFF) ∧
    after (exec (.callNnn 0xFFF) s) (fun t => t.stack[0] == 0x1000) = true := by decide

theorem witness_UnknownOpcodeIsReportedAndPassedOver :
    let s := at200 0x812F { State.reset with PC := 0xFFE }
    s.fault = none ∧ s.PC.toNat ≤ 0xFFE ∧ decode (fetchWord s) = .unknown 0x812F ∧
    reportOut s = some ⟨0xFFE, 0x812F⟩ := by decide

theorem witness_FetchIsBigEndianAndStaysInMemory :
    (let s := { State.reset with PC := 0xFFF }; s.fault = none ∧ 0xFFF < s.PC.toNat + 1) ∧
    (let s := { State.reset with PC := 0xFFE }; s.fault = none ∧ s.PC.toNat + 1 ≤ 0xFFF) := by decide

theorem witness_FaultedCoreTakesNoStepUntilReset :
    let s := { State.reset with fault := some .keyIndexOutOfRange }
    s.fault = some .keyIndexOutOfRange ∧ after (loadProgram [1] s) (fun _ => true) = true := by decide

theorem witness_FaultingCycleChangesOnlyTheFault :
    after (step (at200 0x00EE)) (fun t => t.fault == some .stackUnderflow) = true ∧
    after (step { State.reset with PC := 0x1002 }) (fun t => t.fault == some .pcOutOfRange) = true := by decide

theorem witness_FaultsAreRaisedExactlyWhereListed_pc : faultCause .pcOutOfRange { State.reset with PC := 0xFFF } := by
  show 0xFFE < _
  decide
theorem witness_FaultsAreRaisedExactlyWhereListed_overflow :
    faultCause .stackOverflow (at200 0x2300 { State.reset with SP := 16 }) := ⟨0x300, by decide, by decide⟩
theorem witness_FaultsAreRaisedExactlyWhereListed_underflow : faultCause .stackUnderflow (at200 0x00EE) :=
  ⟨by decide, by decide⟩
theorem witness_FaultsAreRaisedExactlyWhereListed_draw :
    faultCause .indexOutOfRange (at200 0xD011 { State.reset with I := 0x1000 }) :=
  .inl ⟨0, 1, 1, by decide, by decide, by decide⟩
theorem witness_FaultsAreRaisedExactlyWhereListed_bcd :
    faultCause .indexOutOfRange (at200 0xF033 { State.reset with I := 0xFFE }) :=
  .inr (.inl ⟨0, by decide, by decide⟩)
theorem witness_FaultsAreRaisedExactlyWhereListed_store :
    faultCause .indexOutOfRange (at200 0xF155 { State.reset with I := 0xFFF }) :=
  .inr (.inr ⟨1, .inl (by decide), by decide⟩)
theorem witness_FaultsAreRaisedExactlyWhereListed_load :
    faultCause .indexOutOfRange (at200 0xF165 { State.reset with I := 0xFFF }) :=
  .inr (.inr ⟨1, .inr (by decide), by decide⟩)
theorem witness_FaultsAreRaisedExactlyWhereListed_skp : faultCause .keyIndexOutOfRange (at200 0xE09E (regs [(0, 0x10)])) :=
  ⟨0, .inl (by decide), by decide⟩
theorem witness_FaultsAreRaisedExactlyWhereListed_sknp :
    faultCause .keyIndexOutOfRange (at200 0xE0A1 (regs [(0, 0x10)])) := ⟨0, .inr (by decide), by decide⟩
theorem witness_FaultsAreRaisedExactlyWhereListed_font :
    faultCause .fontDigitOutOfRange (at200 0xF029 (regs [(0, 0x10)])) := ⟨0, by decide, by decide⟩

theorem witness_BothTimersTickOncePerCycle :
    (Executes (at200 0xF015 (regs [(0, 0)])) (.ldDtVx 0) ∧
      cycle1 0xF015 (regs [(0, 0)]) (fun t => t.fault.isNone && t.DT == 0) = true) ∧
    (Executes (at200 0xF018 (regs [(0, 1)])) (.ldStVx 0) ∧
      cycle1 0xF018 (regs [(0, 1)]) (fun t => t.fault.isNone && t.ST == 0) = true) ∧
    decode (fetchWord (at200 0x00E0)) = .instr .cls ∧ cycle1 0x00E0 State.reset (fun t => t.fault.isNone) = true := by
  decide

theorem witness_EveryRunningCoreTakesAStep : (at200 0xFFFF).fault = none ∧
    after (exec .ret State.reset) (fun t => t.fault == some .stackUnderflow) = true := by decide

theorem witness_ReturnResumesAtThePoppedAddress :
    0 < ({ State.reset with SP := 16 } : State).SP.val ∧ State.reset.SP.val = 0 := by decide

theorem witness_CallPushesTheNextAddress :
    ({ State.reset with SP := 15 } : State).SP.val < 16 ∧ ({ State.reset with SP := 16 } : State).SP.val = 16 ∧
    (14 : Nat) ≠ ({ State.reset with SP := 15 } : State).SP.val := by decide

theorem witness_CallThenReturnComesBack : ({ State.reset with SP := 15 } : State).SP.val < 16 := by decide

theorem witness_PCGoesOnlyWhereTheInstructionSays :
    cycle1 0x3000 { State.reset with PC := 0xFFC } (fun t => t.fault.isNone && t.PC == 0x1000) = true ∧
    cycle1 0xF00A State.reset (fun t => t.fault.isNone && t.PC == 0x200) = true ∧
    cycle1 0x1FFF State.reset (fun t => t.fault.isNone && t.PC == 0xFFF) = true ∧
    cycle1 0x0000 State.reset (fun t => t.fault.isNone && t.PC == 0x202) = true := by decide

theorem witness_AddWritesSumThenCarry : (0xE : Reg) ≠ Reg.flag := by decide
theorem witness_SubtractsWriteDifferenceThenNoBorrow : (0 : Reg) ≠ Reg.flag := by decide
theorem witness_ShiftsWriteResultThenBitPushedOut : (0xE : Reg) ≠ Reg.flag := by decide

theorem witness_RegistersHaveOnlyTheListedWriters :
    (after (exec (.ldVxMem 3) State.reset) (fun _ => true) = true ∧ mayWriteReg (.ldVxMem 3) 4 = false) ∧
    after (exec (.shlVx 15 0) (regs [(15, 0x80)]))
      (fun t => t.fault.isNone && readV t Reg.flag == 1) = true ∧ (regs [(15, 0x80)]).fault = none := by decide

theorem witness_FontGlyphAddressIsFiveTimesTheDigit :
    (readV (regs [(0, 0xF)]) 0).toNat ≤ 0xF ∧ 0xF < (readV (regs [(0, 0x10)]) 0).toNat := by decide

theorem witness_BcdStoresThreeDigits :
    ({ State.reset with I := 0xFFD } : State).I.toNat + 2 ≤ 0xFFF ∧
    0xFFF < ({ State.reset with I := 0xFFE } : State).I.toNat + 2 := by decide

theorem witness_RegisterStoreWritesV0ToVx :
    ({ State.reset with I := 0xFF0 } : State).I.toNat + (15 : Reg).val ≤ 0xFFF ∧ (15 : Reg) ≤ 15 ∧
    0xFFF < ({ State.reset with I := 0xFF1 } : State).I.toNat + (15 : Reg).val := by decide

theorem witness_RegisterLoadReadsV0ToVx :
    ({ State.reset with I := 0xFF1 } : State).I.toNat + (14 : Reg).val ≤ 0xFFF ∧ (14 : Reg) ≤ 14 ∧ (14 : Reg) < 15 ∧
    0xFFF < ({ State.reset with I := 0xFF2 } : State).I.toNat + (14 : Reg).val := by decide

theorem witness_StoredRegistersAreLoadedBack :
    let s := { regs [(0, 1), (1, 2)] with I := 0xFFE }
    s.I.toNat + (1 : Reg).val ≤ 0xFFF ∧
    after (exec (.ldMemVx 1) s)
      (fun t => decide (({ State.reset with mem := t.mem, I := s.I } : State).mem = t.mem)) = true := by decide

theorem witness_CanonicalMemoryIsItsBytes : Memory.wf [(0x300, 1)] ∧ ∀ a, Memory.read [(0x300, 1)] a = Memory.read [(0x300, 1)] a :=
  ⟨by decide, fun _ => rfl⟩

theorem witness_StoredByteIsSeenByTheFetch :
    0x2FF + 1 = 0x300 ∧ (0x301 : Nat) ≠ 0x300 ∧ 0x301 + 1 ≠ 0x300 := by decide

theorem witness_EachPartHasOnlyItsListedWriters :
    Executes (at200 0xD015) (.drwVxVyN 0 1 5) ∧ after (step (at200 0xD015)) (fun _ => true) = true ∧
    mayWritePart (.drwVxVyN 0 1 5) .index = false ∧ mayStore (.drwVxVyN 0 1 5) = false ∧
    mayWritePart (.drwVxVyN 0 1 5) .delay = false ∧ mayWritePart (.drwVxVyN 0 1 5) .sound = false := by decide

theorem witness_DrawTogglesThePixelsTheSpriteCovers_range :
    (0 : Nibble).toNat = 0 ∧ ({ State.reset with I := 0xFF1 } : State).I.toNat + (15 : Nibble).toNat - 1 ≤ 0xFFF ∧
    0 < (15 : Nibble).toNat ∧ 0xFFF < ({ State.reset with I := 0xFF2 } : State).I.toNat + (15 : Nibble).toNat - 1 := by
  decide
theorem witness_DrawTogglesThePixelsTheSpriteCovers_covered :
    spriteCovers { regs [(0, 62)] with fb := State.reset.fb.setPixel 0 1 true } 0 1 5 0 1 ∧
    ({ regs [(0, 62)] with fb := State.reset.fb.setPixel 0 1 true } : State).fb.pixel 0 1 = true :=
  ⟨⟨0, 3, by decide, by decide, by decide, by decide, by decide⟩, by decide⟩
theorem witness_DrawTogglesThePixelsTheSpriteCovers_uncovered : ¬ spriteCovers State.reset 0 1 0 0 0 :=
  fun ⟨_, _, h, _⟩ => absurd h (Nat.not_lt_zero _)
theorem witness_DrawTogglesThePixelsTheSpriteCovers_no_collision :
    ∀ py px, spriteCovers State.reset 0 1 5 py px → State.reset.fb.pixel py px = false := by
  intro py px _
  simp [State.reset, FrameBuffer.pixel]

theorem witness_DrawingTwiceRestoresTheScreen :
    State.reset.I.toNat + (5 : Nibble).toNat - 1 ≤ 0xFFF ∧
    after (exec (.drwVxVyN 15 1 5) State.reset) (fun t =>
      decide ((readV t 15).toNat % 64 = (readV State.reset 15).toNat % 64 ∧
        (readV t 1).toNat % 32 = (readV State.reset 1).toNat % 32)) = true := by decide

theorem witness_KeySkipsReadTheNamedKey :
    (readV (regs [(2, 0xF)]) 2).toNat = (15 : Fin 16).val ∧ 0xF < (readV (regs [(2, 0x10)]) 2).toNat := by decide

theorem witness_KeyWaitTakesTheLowestPressedKey :
    (let s := { State.reset with key := State.reset.key.set 15 true };
      s.key[(15 : Fin 16)] = true ∧ ∀ j < (15 : Fin 16), s.key[j] = false) ∧
    (∀ k : Fin 16, State.reset.key[k] = false) := by decide

theorem witness_StalledKeyWaitChangesOnlyTimers :
    (Executes (at200 0xFF0A) (.ldVxK 15) ∧ ∀ k : Fin 16, (at200 0xFF0A).key[k] = false) ∧
    (let s := at200 0xFF0A { State.reset with key := State.reset.key.set 15 true };
      Executes s (.ldVxK 15) ∧ s.key[(15 : Fin 16)] = true) := by decide

theorem witness_ReadDelayLoadsTheTimer : Executes (at200 0xFF07) (.ldVxDt 15) := by decide

theorem witness_TimerWritesAreTickedInTheirOwnCycle :
    Executes (at200 0xF015) (.ldDtVx 0) ∧ Executes (at200 0xF018) (.ldStVx 0) := by decide

theorem witness_DelayReadAfterWriteIsOneLess :
    let s := storeBytes (regs [(0, 5)]) 0x200 [0xF0, 0x15, 0xF1, 0x07]
    Executes s (.ldDtVx 0) ∧ after (step s) (fun t => decide (Executes t (.ldVxDt 1))) = true := by decide

theorem witness_ResetGivesEveryPieceItsValue :
    State.reset = State.reset ∧ resetPort { State.reset with fault := some .stackOverflow } =
      resetPort { State.reset with fault := some .stackOverflow } := ⟨rfl, rfl⟩

theorem witness_LoadWritesTheImageVerbatim :
    (List.replicate 3584 (0xAA : Byte)).length ≤ 3584 ∧ 3584 < (List.replicate 3585 (0xAA : Byte)).length ∧
    ([0xAA, 0xBB] : List Byte)[1]? = some 0xBB := by
  rw [List.length_replicate, List.length_replicate]; decide

theorem witness_PortsShowTheState :
    State.reset.fault = none ∧
    after (step (at200 0x00EE)) (fun t => t.fault == some .stackUnderflow) = true ∧
    after (step { State.reset with PC := 0xFFF }) (fun t => t.fault == some .pcOutOfRange) = true := by decide

theorem witness_UnloadedCoreRunsOffTheEndOfMemory :
    (1792 : Nat) ≤ 1792 ∧ (0 : Nat) < 1792 ∧ core.run 0 State.reset = .next State.reset := ⟨by decide, by decide, rfl⟩

theorem witness_EveryStepKeepsTheInvariant :
    State.Inv (at200 0xFF55 { regs [(15, 0xEE)] with I := 0xFF0 }) ∧
    cycle1 0xFF55 { regs [(15, 0xEE)] with I := 0xFF0 } (fun t => t.mem.read 0xFFF == 0xEE) = true := by
  decide

theorem witness_EveryReachableStateMeetsTheInvariant :
    ∃ t, loadProgram [0x22, 0x00] State.reset = .next t ∧ Reachable t ∧ t.running :=
  ⟨_, rfl, .act (.load [0x22, 0x00]) .reset rfl, rfl⟩

theorem load_of_wellFormed {data : List Byte} (h : imageWellFormed data = true) (s : State) :
    act (.load data) s = .next (storeBytes s 0x200 data) := if_pos h

/-- At the boundary: the longest image, on a core that its fetch has stopped. -/
theorem witness_EveryActionKeepsTheInvariant :
    State.Inv { State.reset with PC := 0x1002, fault := some .pcOutOfRange } ∧
    ∃ t, act (.load (List.replicate 3584 0)) { State.reset with PC := 0x1002, fault := some .pcOutOfRange } = .next t :=
  ⟨by decide, _, load_of_wellFormed test_well_formed_image _⟩

theorem witness_KeysAreReadOnlyByKeyInstructions :
    after (step (at200 0xF007)) (fun _ => true) = true ∧ Executes (at200 0xF007) (.ldVxDt 0) ∧
    readsKeys (.ldVxDt 0) = false := by decide

theorem witness_SoundTimerIsReadByNoInstruction : after (step (at200 0xF007)) (fun _ => true) = true := by decide

theorem witness_EndedRunStaysWhereItIs :
    runEnd? (at200 0x1200) = some .selfJump ∧ runEnd? (at200 0xF00A) = some .stalledWait := by decide

end Sys2Proof.Tests
end

/-!
PROOFS of the family 10_state: the load port (R33), the keypad port (R31, R39) and the outputs (R34 to R37).
-/

namespace Sys2Proof.Machine

/-! ## What a store keeps and what it puts in memory -/

/-- A store leaves each of its bytes at its place. -/
theorem read_storeBytes_of_getElem? {bs : List Byte} {k : Nat} {v : Byte} (h : bs[k]? = some v) (s : State) (a : Nat) :
    (storeBytes s a bs).mem.read (a + k) = v := by
  obtain ⟨hk, hv⟩ := List.getElem?_eq_some_iff.1 h
  rw [storeBytes_mem, Memory.read_writeBytes_inside hk, hv]

theorem memKeptBut_storeBytes (s : State) (a : Nat) (bs : List Byte) : MemKeptBut a bs.length s (storeBytes s a bs) :=
  fun _ hb => Memory.read_writeBytes_outside hb s.mem

theorem regsKeptBut_storeBytes (s : State) (a : Nat) (bs : List Byte) (rs : List Reg) :
    RegsKeptBut rs s (storeBytes s a bs) :=
  fun r _ => readV_storeBytes s a bs r

theorem partsKeptBut_storeBytes (s : State) (a : Nat) (bs : List Byte) (ps : List Part) :
    PartsKeptBut ps s (storeBytes s a bs) := by
  intro p _
  cases p <;> rfl

/-! ## The load port -/

theorem imageWellFormed_iff (data : List Byte) : imageWellFormed data = true ↔ data.length ≤ 3584 := by
  simp [imageWellFormed]

/-- An image that fits is stored from `LOAD_BASE`. -/
theorem loadProgram_of_length_le {data : List Byte} (h : data.length ≤ 3584) (s : State) :
    loadProgram data s = .next (storeBytes s 0x200 data) :=
  if_pos ((imageWellFormed_iff data).2 h)

/-- An image that does not fit is refused. -/
theorem loadProgram_of_lt_length {data : List Byte} (h : 3584 < data.length) (s : State) :
    loadProgram data s = .refused (.imageTooLong data.length) :=
  if_neg fun hw => Nat.not_le.2 h ((imageWellFormed_iff data).1 hw)

/-- Settles O49: the load is a store at `LOAD_BASE`, and a store keeps all but its own bytes. -/
theorem loadWritesTheImageVerbatim : Obligations.LoadWritesTheImageVerbatim := by
  intro data s
  refine ⟨fun h => ⟨_, loadProgram_of_length_le h s, fun k v hv => ?_, ?_, ?_, ?_, ?_⟩,
    fun h => loadProgram_of_lt_length h s⟩
  · exact read_storeBytes_of_getElem? hv s 0x200
  · exact memKeptBut_storeBytes s 0x200 data
  · exact regsKeptBut_storeBytes s 0x200 data []
  · exact partsKeptBut_storeBytes s 0x200 data []
  · exact storeBytes_PC s 0x200 data

/-! ## The keypad port -/

theorem partsKeptBut_setKeys (keys : Vector Bool 16) (s : State) : PartsKeptBut [.keys] s (setKeys keys s) := by
  intro p hp
  cases p with
  | keys => exact absurd List.mem_cons_self hp
  | index | slots | sp | delay | sound | display | fault | draws => rfl

theorem onlyWrites_setKeys (keys : Vector Bool 16) (s : State) : OnlyWrites [] [.keys] s (setKeys keys s) :=
  ⟨fun r _ => readV_setKeys keys s r, partsKeptBut_setKeys keys s, fun a => by rw [setKeys_mem]⟩

/-! ## The outputs -/

/-- Row-major order: the index's quotient by 64 is the row, and its remainder the column. -/
theorem fbOut_getElem? (s : State) (y : Fin 32) (x : Fin 64) :
    (fbOut s)[y.val * 64 + x.val]? = some (s.fb.pixel y x) := by
  have hi : y.val * 64 + x.val < 32 * 64 := by omega
  have hrow : (y.val * 64 + x.val) / 64 = y.val := by omega
  have hcol : (y.val * 64 + x.val) % 64 = x.val := by omega
  rw [fbOut, Vector.getElem?_eq_getElem hi, Vector.getElem_flatten hi]
  simp only [hrow, hcol, FrameBuffer.pixel, Fin.getElem_fin]

theorem soundActive_iff (s : State) : soundActive s = true ↔ s.ST ≠ 0 := bne_iff_ne

theorem faultOut_of_none {s : State} (h : s.fault = none) : faultOut s = none := by
  rw [faultOut, h, Option.map_none]

theorem faultOut_of_some {s : State} {c : FaultCode} (h : s.fault = some c) :
    faultOut s = some ⟨c, s.PC, if c = .pcOutOfRange then none else some (fetchWord s)⟩ := by
  rw [faultOut, h, Option.map_some]

/-- Settles O50, port by port. -/
theorem portsShowTheState : Obligations.PortsShowTheState := by
  intro s keys
  refine ⟨⟨setKeys_key keys s, setKeys_PC keys s, onlyWrites_setKeys keys s⟩, fbOut_getElem? s, soundActive_iff s,
    rfl, rfl, ?_, ?_⟩
  · exact faultOut_of_none
  · exact fun c => faultOut_of_some

end Sys2Proof.Machine

/-!
PROOFS of the family 20_memory: a byte store seen through the two-byte fetch (R43, R56).
-/

namespace Sys2Proof.Machine

/-! ## The word fetched after a byte is written -/

/-- The word at `a` is its own byte, then the byte after it. -/
theorem Memory.readWord_eq_append (m : Memory) (a : Nat) : m.readWord a = m.read a ++ m.read (a + 1) := rfl

theorem Memory.readWord_write_high (m : Memory) (a : Nat) (v : Byte) :
    (m.write a v).readWord a = v ++ m.read (a + 1) := by
  rw [Memory.readWord_eq_append, Memory.read_write_same, Memory.read_write_other (Nat.succ_ne_self a)]

theorem Memory.readWord_write_low (m : Memory) (b : Nat) (v : Byte) :
    (m.write (b + 1) v).readWord b = m.read b ++ v := by
  rw [Memory.readWord_eq_append, Memory.read_write_same, Memory.read_write_other (Nat.succ_ne_self b).symm]

theorem Memory.readWord_write_other {a b : Nat} (hhigh : b ≠ a) (hlow : b + 1 ≠ a) (m : Memory) (v : Byte) :
    (m.write a v).readWord b = m.readWord b := by
  simp only [Memory.readWord_eq_append, Memory.read_write_other hhigh, Memory.read_write_other hlow]

/-- Settles O37: a word is two bytes, and a write changes the byte at its own address alone. -/
theorem storedByteIsSeenByTheFetch : Obligations.StoredByteIsSeenByTheFetch := by
  intro m a v
  refine ⟨Memory.readWord_write_high m a v, ?_, fun b hhigh hlow => Memory.readWord_write_other hhigh hlow m v⟩
  rintro b rfl
  exact Memory.readWord_write_low m b v

end Sys2Proof.Machine

/-!
PROOFS of the family 30_encoding: the opcode map and the words it leaves out (R65, R68), the cycle of an unknown opcode
(R67, R36) and the fetch (R61).
-/

namespace Sys2Proof

/-! ## A word is its fields -/

theorem formNnn_fields (op : Word) : formNnn (fieldF op) (fieldNnn op) = op := by
  apply BitVec.eq_of_toNat_eq
  rw [formNnn_toNat, fieldF_toNat, fieldNnn_toNat]
  omega

theorem formXnn_fields (op : Word) : formXnn (fieldF op) (fieldX op) (fieldNn op) = op := by
  apply BitVec.eq_of_toNat_eq
  rw [formXnn_toNat, fieldF_toNat, fieldX_val, fieldNn_toNat]
  omega

theorem formXyn_fields (op : Word) : formXyn (fieldF op) (fieldX op) (fieldY op) (fieldN op) = op := by
  apply BitVec.eq_of_toNat_eq
  rw [formXyn_toNat, fieldF_toNat, fieldX_val, fieldY_val, fieldN_toNat]
  omega

/-! ## The four masks of the opcode map, each as the fields it keeps (R64, R65) -/

theorem nibble_and_F (n : Nibble) : n &&& 0xF = n := BitVec.and_allOnes

theorem nibble_and_0 (n : Nibble) : n &&& BitVec.ofFin (0 : Reg) = BitVec.ofFin (0 : Reg) := BitVec.and_zero

theorem byte_and_FF (b : Byte) : b &&& 0xFF = b := BitVec.and_allOnes

theorem and_FFFF (op : Word) : op &&& 0xFFFF = op := BitVec.and_allOnes

theorem and_F000 (op : Word) : op &&& 0xF000 = formNnn (fieldF op) 0 := by
  have h : formNnn (fieldF op) (fieldNnn op) &&& formNnn 0xF 0 = formNnn (fieldF op) 0 := by
    rw [formNnn, formNnn, BitVec.and_append, nibble_and_F, show fieldNnn op &&& 0 = 0 from BitVec.and_zero]; rfl
  rwa [formNnn_fields] at h

theorem and_F0FF (op : Word) : op &&& 0xF0FF = formXnn (fieldF op) 0 (fieldNn op) := by
  have h : formXnn (fieldF op) (fieldX op) (fieldNn op) &&& formXnn 0xF 0 0xFF =
      formXnn (fieldF op) 0 (fieldNn op) := by
    rw [formXnn, formXnn, BitVec.and_append, BitVec.and_append, nibble_and_F, nibble_and_0, byte_and_FF]; rfl
  rwa [formXnn_fields] at h

theorem and_F00F (op : Word) : op &&& 0xF00F = formXyn (fieldF op) 0 0 (fieldN op) := by
  have h : formXyn (fieldF op) (fieldX op) (fieldY op) (fieldN op) &&& formXyn 0xF 0 0 0xF =
      formXyn (fieldF op) 0 0 (fieldN op) := by
    rw [formXyn, formXyn, BitVec.and_append, BitVec.and_append, BitVec.and_append, nibble_and_F, nibble_and_0,
      nibble_and_0, nibble_and_F]; rfl
  rwa [formXyn_fields] at h

theorem and_F000_eq {op : Word} {f : Nibble} (hf : fieldF op = f) : op &&& 0xF000 = formNnn f 0 := by
  rw [and_F000, hf]

theorem and_F0FF_eq {op : Word} {f : Nibble} {nn : Byte} (hf : fieldF op = f) (hnn : fieldNn op = nn) :
    op &&& 0xF0FF = formXnn f 0 nn := by
  rw [and_F0FF, hf, hnn]

theorem and_F00F_eq {op : Word} {f n : Nibble} (hf : fieldF op = f) (hn : fieldN op = n) :
    op &&& 0xF00F = formXyn f 0 0 n := by
  rw [and_F00F, hf, hn]

/-! ## The check of R68, family by family -/

theorem wordWellFormed_family0 {op : Word} (h : fieldF op = 0) :
    wordWellFormed op = (op == 0x00E0 || op == 0x00EE) := by
  have h0 : op.toNat / 0x1000 = 0 := by rw [← fieldF_toNat, h]; rfl
  rw [wordWellFormed, if_pos h0]

theorem wordWellFormed_family {op : Word} {f : Nibble} (h : fieldF op = f) (hf : f ≠ 0) :
    wordWellFormed op = subOpcodeKnown f.toNat (fieldN op).toNat (fieldNn op).toNat := by
  have h0 : op.toNat / 0x1000 ≠ 0 := by
    rw [← fieldF_toNat, h]
    exact fun e => hf (BitVec.eq_of_toNat_eq e)
  rw [wordWellFormed, if_neg h0, ← fieldF_toNat, h, fieldN_toNat, fieldNn_toNat]

/-- A family that takes its whole low 12 bits as fields has no sub-opcode to check. -/
theorem subOpcodeKnown_of_free {f : Nat} (h : f ∉ [0x5, 0x8, 0x9, 0xE, 0xF]) (n nn : Nat) :
    subOpcodeKnown f n nn = true := by
  unfold subOpcodeKnown
  split <;> simp_all

theorem subOpcodeKnown_8 (n : Nibble) (nn : Nat) : subOpcodeKnown 0x8 n.toNat nn = true ↔
    n = 0 ∨ n = 1 ∨ n = 2 ∨ n = 3 ∨ n = 4 ∨ n = 5 ∨ n = 6 ∨ n = 7 ∨ n = 0xE := by
  simp [subOpcodeKnown, ← BitVec.toNat_inj]
  omega

theorem subOpcodeKnown_E (n : Nat) (nn : Byte) : subOpcodeKnown 0xE n nn.toNat = true ↔ nn = 0x9E ∨ nn = 0xA1 := by
  simp [subOpcodeKnown, ← BitVec.toNat_inj]

theorem subOpcodeKnown_F (n : Nat) (nn : Byte) : subOpcodeKnown 0xF n nn.toNat = true ↔
    nn = 0x07 ∨ nn = 0x0A ∨ nn = 0x15 ∨ nn = 0x18 ∨ nn = 0x1E ∨ nn = 0x29 ∨ nn = 0x33 ∨ nn = 0x55 ∨ nn = 0x65 := by
  simp [subOpcodeKnown, ← BitVec.toNat_inj]

/-! ## Which words decode as unknown (R62, R68) -/

theorem decode_eq_instr_or_unknown (op : Word) : (∃ i, decode op = .instr i) ∨ decode op = .unknown op := by
  rcases h : decode op with i | op'
  · exact .inl ⟨i, rfl⟩
  · exact .inr (decode_unknown h ▸ rfl)

theorem decode0_unknown_iff (op : Word) : decode0 op = .unknown op ↔ ¬ (op = 0x00E0 ∨ op = 0x00EE) := by
  unfold decode0
  split_ifs <;> simp_all

theorem decodeN0_unknown_iff (op : Word) (i : Instr) :
    decodeN0 op i = .unknown op ↔ ((fieldN op).toNat == 0) = false := by
  unfold decodeN0
  split_ifs with h
  · rw [h]; exact iff_of_false nofun nofun
  · exact iff_of_true rfl (beq_eq_false_iff_ne.2 fun e => h (BitVec.eq_of_toNat_eq e))

theorem decode8_unknown_iff (op : Word) (nn : Nat) :
    decode8 op = .unknown op ↔ subOpcodeKnown 0x8 (fieldN op).toNat nn = false := by
  rw [← Bool.not_eq_true, subOpcodeKnown_8, decode8]
  split <;> simp_all

theorem decodeE_unknown_iff (op : Word) (n : Nat) :
    decodeE op = .unknown op ↔ subOpcodeKnown 0xE n (fieldNn op).toNat = false := by
  rw [← Bool.not_eq_true, subOpcodeKnown_E, decodeE]
  split <;> simp_all

theorem decodeF_unknown_iff (op : Word) (n : Nat) :
    decodeF op = .unknown op ↔ subOpcodeKnown 0xF n (fieldNn op).toNat = false := by
  rw [← Bool.not_eq_true, subOpcodeKnown_F, decodeF]
  split <;> simp_all

/-- The decoder, written from the map of what is right, and the check, written from the list of what is wrong, agree. -/
theorem decode_unknown_iff (op : Word) : decode op = .unknown op ↔ wordWellFormed op = false := by
  rcases nibble_cases (fieldF op) with e | e | e | e | e | e | e | e | e | e | e | e | e | e | e | e
  · rw [decode_family0 _ e, wordWellFormed_family0 e, decode0_unknown_iff]; simp
  · rw [decode_family1 _ e, wordWellFormed_family e nofun]; exact iff_of_false nofun nofun
  · rw [decode_family2 _ e, wordWellFormed_family e nofun]; exact iff_of_false nofun nofun
  · rw [decode_family3 _ e, wordWellFormed_family e nofun]; exact iff_of_false nofun nofun
  · rw [decode_family4 _ e, wordWellFormed_family e nofun]; exact iff_of_false nofun nofun
  · rw [decode_family5 _ e, wordWellFormed_family e nofun]; exact decodeN0_unknown_iff op _
  · rw [decode_family6 _ e, wordWellFormed_family e nofun]; exact iff_of_false nofun nofun
  · rw [decode_family7 _ e, wordWellFormed_family e nofun]; exact iff_of_false nofun nofun
  · rw [decode_family8 _ e, wordWellFormed_family e nofun]; exact decode8_unknown_iff op _
  · rw [decode_family9 _ e, wordWellFormed_family e nofun]; exact decodeN0_unknown_iff op _
  · rw [decode_familyA _ e, wordWellFormed_family e nofun]; exact iff_of_false nofun nofun
  · rw [decode_familyB _ e, wordWellFormed_family e nofun]; exact iff_of_false nofun nofun
  · rw [decode_familyC _ e, wordWellFormed_family e nofun]; exact iff_of_false nofun nofun
  · rw [decode_familyD _ e, wordWellFormed_family e nofun]; exact iff_of_false nofun nofun
  · rw [decode_familyE _ e, wordWellFormed_family e nofun]; exact decodeE_unknown_iff op _
  · rw [decode_familyF _ e, wordWellFormed_family e nofun]; exact decodeF_unknown_iff op _

/-! ## The mask of a family

All rows of a family have one mask, and the check of R68 reads no bit outside it: so a word that a row selects is as
well-formed as the row's value. -/

/-- The bits that select an instruction among those of family `f` (R65). -/
def familyMask (f : Nibble) : Word :=
  if f = 0x0 then 0xFFFF
  else if f = 0x5 ∨ f = 0x8 ∨ f = 0x9 then 0xF00F
  else if f = 0xE ∨ f = 0xF then 0xF0FF
  else 0xF000

theorem mask_eq_familyMask : ∀ r ∈ opcodeTable, r.mask = familyMask (fieldF r.value) := by decide

theorem value_wordWellFormed : ∀ r ∈ opcodeTable, wordWellFormed r.value = true := by decide

/-- Every mask keeps the family. -/
theorem fieldF_and_familyMask (op : Word) (f : Nibble) : fieldF (op &&& familyMask f) = fieldF op := by
  unfold familyMask
  split_ifs
  · rw [and_FFFF]
  · rw [and_F00F, fieldF_formXyn]
  · rw [and_F0FF, fieldF_formXnn]
  · rw [and_F000, fieldF_formNnn]

theorem free_of_not_masked : ∀ f : Nibble, f ≠ 0x0 → ¬ (f = 0x5 ∨ f = 0x8 ∨ f = 0x9) → ¬ (f = 0xE ∨ f = 0xF) →
    f.toNat ∉ [0x5, 0x8, 0x9, 0xE, 0xF] := by decide

theorem wordWellFormed_and_familyMask (op : Word) :
    wordWellFormed (op &&& familyMask (fieldF op)) = wordWellFormed op := by
  by_cases h0 : fieldF op = 0
  · rw [h0]; exact congrArg wordWellFormed (and_FFFF op)
  rw [wordWellFormed_family (fieldF_and_familyMask op _) h0, wordWellFormed_family rfl h0, familyMask, if_neg h0]
  split_ifs with hn hnn
  · rw [and_F00F, fieldN_formXyn]
    rcases hn with e | e | e <;> rw [e] <;> rfl
  · rw [and_F0FF, fieldNn_formXnn]
    rcases hnn with e | e <;> rw [e] <;> rfl
  · have hfree := free_of_not_masked _ h0 hn hnn
    rw [subOpcodeKnown_of_free hfree, subOpcodeKnown_of_free hfree]

theorem wordWellFormed_of_selected {r : Row} {op : Word} (hr : r ∈ opcodeTable) (hs : op &&& r.mask = r.value) :
    wordWellFormed op = true := by
  rw [mask_eq_familyMask r hr] at hs
  have hf : fieldF r.value = fieldF op := hs ▸ fieldF_and_familyMask op _
  rw [← wordWellFormed_and_familyMask, ← hf, hs]
  exact value_wordWellFormed r hr

/-! ## The row of a word (R65) -/

/-- A word's instruction names a row that selects the word. -/
theorem selected_of_decode {op : Word} {i : Instr} (h : decode op = .instr i) :
    ∃ r, opcodeTable[rowNumber i - 1]? = some r ∧ op &&& r.mask = r.value := by
  rcases nibble_cases (fieldF op) with e | e | e | e | e | e | e | e | e | e | e | e | e | e | e | e
  · rw [decode_family0 _ e, decode0] at h
    split_ifs at h with hcls hret <;> cases h
    · exact ⟨_, rfl, hcls ▸ and_FFFF op⟩
    · exact ⟨_, rfl, hret ▸ and_FFFF op⟩
  · rw [decode_family1 _ e] at h; cases h; exact ⟨_, rfl, and_F000_eq e⟩
  · rw [decode_family2 _ e] at h; cases h; exact ⟨_, rfl, and_F000_eq e⟩
  · rw [decode_family3 _ e] at h; cases h; exact ⟨_, rfl, and_F000_eq e⟩
  · rw [decode_family4 _ e] at h; cases h; exact ⟨_, rfl, and_F000_eq e⟩
  · rw [decode_family5 _ e, decodeN0] at h
    split_ifs at h with hn
    cases h; exact ⟨_, rfl, and_F00F_eq e hn⟩
  · rw [decode_family6 _ e] at h; cases h; exact ⟨_, rfl, and_F000_eq e⟩
  · rw [decode_family7 _ e] at h; cases h; exact ⟨_, rfl, and_F000_eq e⟩
  · rw [decode_family8 _ e, decode8] at h
    split at h <;> cases h
    all_goals rename_i hn; exact ⟨_, rfl, and_F00F_eq e hn⟩
  · rw [decode_family9 _ e, decodeN0] at h
    split_ifs at h with hn
    cases h; exact ⟨_, rfl, and_F00F_eq e hn⟩
  · rw [decode_familyA _ e] at h; cases h; exact ⟨_, rfl, and_F000_eq e⟩
  · rw [decode_familyB _ e] at h; cases h; exact ⟨_, rfl, and_F000_eq e⟩
  · rw [decode_familyC _ e] at h; cases h; exact ⟨_, rfl, and_F000_eq e⟩
  · rw [decode_familyD _ e] at h; cases h; exact ⟨_, rfl, and_F000_eq e⟩
  · rw [decode_familyE _ e, decodeE] at h
    split at h <;> cases h
    all_goals rename_i hnn; exact ⟨_, rfl, and_F0FF_eq e hnn⟩
  · rw [decode_familyF _ e, decodeF] at h
    split at h <;> cases h
    all_goals rename_i hnn; exact ⟨_, rfl, and_F0FF_eq e hnn⟩

theorem rows_agree_only_if_eq : ∀ r ∈ opcodeTable, ∀ r' ∈ opcodeTable,
    r.value &&& r'.mask = r'.value &&& r.mask → r = r' := by decide

theorem opcodeTable_nodup : opcodeTable.Nodup := by decide

/-- Two rows that select one word have values that agree under both masks, and only a row and itself do. -/
theorem row_unique {op : Word} {r r' : Row} (hr : r ∈ opcodeTable) (hr' : r' ∈ opcodeTable)
    (hs : op &&& r.mask = r.value) (hs' : op &&& r'.mask = r'.value) : r = r' := by
  refine rows_agree_only_if_eq r hr r' hr' ?_
  rw [← hs, ← hs', BitVec.and_assoc, BitVec.and_assoc, BitVec.and_comm r.mask]

theorem decode_of_selected {op : Word} {r : Row} (hr : r ∈ opcodeTable) (hs : op &&& r.mask = r.value) :
    ∃ i, decode op = .instr i := by
  refine (decode_eq_instr_or_unknown op).resolve_right fun hu => ?_
  have hw : wordWellFormed op = false := (decode_unknown_iff op).1 hu
  rw [wordWellFormed_of_selected hr hs] at hw
  cases hw

theorem rowNumber_pos (i : Instr) : 0 < rowNumber i := by
  cases i <;> exact Nat.succ_pos _

/-- The row that selects a word is the one its instruction names, since that one selects it too. -/
theorem rowNumber_of_selected {op : Word} {i : Instr} {k : Nat} {r : Row} (hd : decode op = .instr i)
    (hk : opcodeTable[k]? = some r) (hs : op &&& r.mask = r.value) : rowNumber i = k + 1 := by
  obtain ⟨r', hk', hs'⟩ := selected_of_decode hd
  have hrow : r = r' := row_unique (List.mem_of_getElem? hk) (List.mem_of_getElem? hk') hs hs'
  obtain ⟨hlt, -⟩ := List.getElem?_eq_some_iff.1 hk
  have hindex : k = rowNumber i - 1 :=
    (List.getElem?_inj hlt opcodeTable_nodup).1 (hk.trans (hrow ▸ hk'.symm))
  have := rowNumber_pos i
  omega

theorem decode_unknown_iff_not_selected (op : Word) :
    decode op = .unknown op ↔ ∀ r ∈ opcodeTable, op &&& r.mask ≠ r.value := by
  constructor
  · intro hu r hr hs
    obtain ⟨i, hd⟩ := decode_of_selected hr hs
    cases hd.symm.trans hu
  · intro hnone
    refine (decode_eq_instr_or_unknown op).resolve_left fun ⟨i, hd⟩ => ?_
    obtain ⟨r, hk, hs⟩ := selected_of_decode hd
    exact hnone r (List.mem_of_getElem? hk) hs

/-- Settles O3: an instruction's row selects its word, and no second row does. -/
theorem theRowThatMatchesIsDecoded : Obligations.TheRowThatMatchesIsDecoded := by
  intro op
  refine ⟨fun r hr r' hr' hs hs' => row_unique hr hr' hs hs', fun i hd => selected_of_decode hd, fun k r hk hs => ?_,
    decode_unknown_iff_not_selected op⟩
  obtain ⟨i, hd⟩ := decode_of_selected (List.mem_of_getElem? hk) hs
  exact ⟨i, hd, rowNumber_of_selected hd hk hs⟩

/-! ## How many words of a family are unknown (R68)

In each family the check compares the word's low bits, its remainder by `m`, with the list `L` of known codes: it
leaves out `m - L.card` codes, each once for every value of the bits above. -/

theorem count_mod_notMem {m : ℕ} {L : Finset ℕ} (hL : L ⊆ Finset.range m) (q : ℕ) :
    Nat.count (fun k => k % m ∉ L) (q * m) = q * (m - L.card) := by
  induction q with
  | zero => simp
  | succ q ih =>
    have hperiod : Nat.count (fun k => k % m ∉ L) m = m - L.card := by
      rw [Nat.count_eq_card_filter_range, ← Finset.card_range m, ← Finset.card_sdiff_of_subset hL,
        Finset.card_range]
      congr 1
      ext k
      simp +contextual [Nat.mod_eq_of_lt]
    rw [Nat.succ_mul, Nat.count_add']
    simp only [Nat.add_mod_right, ih, hperiod]
    ring

/-- The word of family `f` whose low 12 bits are `k`. -/
def familyWord (f k : Nat) : Word := BitVec.ofNat 16 (f * 0x1000 + k)

theorem familyWord_toNat {f k : Nat} (hf : f < 0x10) (hk : k < 0x1000) :
    (familyWord f k).toNat = f * 0x1000 + k := by
  rw [familyWord, BitVec.toNat_ofNat]
  omega

theorem wordWellFormed_familyWord_zero {k : Nat} (hk : k < 0x1000) :
    wordWellFormed (familyWord 0 k) = true ↔ k % 0x1000 ∈ ({0xE0, 0xEE} : Finset ℕ) := by
  have hw : (familyWord 0 k).toNat = k := by rw [familyWord_toNat (by decide) hk]; omega
  rw [wordWellFormed, hw, if_pos (by omega), Nat.mod_eq_of_lt hk]
  simp [← BitVec.toNat_inj, hw]

theorem wordWellFormed_familyWord {f k : Nat} (hpos : 0 < f) (hf : f < 0x10) (hk : k < 0x1000) :
    wordWellFormed (familyWord f k) = subOpcodeKnown f (k % 0x10) (k % 0x100) := by
  have hfamily : (f * 0x1000 + k) / 0x1000 = f := by omega
  have hn : (f * 0x1000 + k) % 0x10 = k % 0x10 := by omega
  have hnn : (f * 0x1000 + k) % 0x100 = k % 0x100 := by omega
  rw [wordWellFormed, familyWord_toNat hf hk, hfamily, hn, hnn, if_neg hpos.ne']

/-- The unknown words of family `f`, as their low 12 bits. -/
def unknownsOfFamily (f : Nat) : List Nat :=
  (List.range 0x1000).filter fun k => decode (familyWord f k) = .unknown (familyWord f k)

theorem length_unknownsOfFamily {f m q c : Nat} {L : Finset ℕ} (hL : L ⊆ Finset.range m) (hq : q * m = 0x1000)
    (hc : q * (m - L.card) = c) (h : ∀ k < 0x1000, wordWellFormed (familyWord f k) = true ↔ k % m ∈ L) :
    (unknownsOfFamily f).length = c := by
  rw [← hc, ← count_mod_notMem hL q, hq, Nat.count, List.countP_eq_length_filter]
  refine congrArg List.length (List.filter_congr fun k hk => ?_)
  rw [decide_eq_decide, decode_unknown_iff, ← Bool.not_eq_true, h k (List.mem_range.1 hk)]

theorem length_unknownsOfFamily_zero : (unknownsOfFamily 0x0).length = 4094 :=
  length_unknownsOfFamily (m := 0x1000) (q := 1) (L := {0xE0, 0xEE}) (by simp [Finset.insert_subset_iff]) rfl rfl
    fun _ => wordWellFormed_familyWord_zero

theorem length_unknownsOfFamily_pos {f m q c : Nat} {L : Finset ℕ} (hpos : 0 < f) (hf : f < 0x10)
    (hL : L ⊆ Finset.range m) (hq : q * m = 0x1000) (hc : q * (m - L.card) = c)
    (h : ∀ k, subOpcodeKnown f (k % 0x10) (k % 0x100) = true ↔ k % m ∈ L) :
    (unknownsOfFamily f).length = c :=
  length_unknownsOfFamily hL hq hc fun k hk => by rw [wordWellFormed_familyWord hpos hf hk, h k]

theorem length_unknownsOfFamily_5 : (unknownsOfFamily 0x5).length = 3840 :=
  length_unknownsOfFamily_pos (m := 0x10) (q := 0x100) (L := {0}) (by decide) (by decide) (by decide) rfl (by decide)
    fun k => by simp [subOpcodeKnown]

theorem length_unknownsOfFamily_8 : (unknownsOfFamily 0x8).length = 1792 :=
  length_unknownsOfFamily_pos (m := 0x10) (q := 0x100) (L := {0, 1, 2, 3, 4, 5, 6, 7, 0xE}) (by decide) (by decide)
    (by decide) rfl (by decide) fun k => by simp [subOpcodeKnown]; omega

theorem length_unknownsOfFamily_9 : (unknownsOfFamily 0x9).length = 3840 :=
  length_unknownsOfFamily_pos (m := 0x10) (q := 0x100) (L := {0}) (by decide) (by decide) (by decide) rfl (by decide)
    fun k => by simp [subOpcodeKnown]

theorem length_unknownsOfFamily_E : (unknownsOfFamily 0xE).length = 4064 :=
  length_unknownsOfFamily_pos (m := 0x100) (q := 0x10) (L := {0x9E, 0xA1}) (by decide) (by decide) (by decide) rfl
    (by decide) fun k => by simp [subOpcodeKnown]

theorem length_unknownsOfFamily_F : (unknownsOfFamily 0xF).length = 3952 :=
  length_unknownsOfFamily_pos (m := 0x100) (q := 0x10) (L := {0x07, 0x0A, 0x15, 0x18, 0x1E, 0x29, 0x33, 0x55, 0x65})
    (by decide) (by decide) (by decide) rfl (by decide) fun k => by simp [subOpcodeKnown]

/-- With no sub-opcode there is one code, the empty one, and it is known. -/
theorem length_unknownsOfFamily_free {f : Nat} (hpos : 0 < f) (hf : f < 0x10) (h : f ∉ [0x5, 0x8, 0x9, 0xE, 0xF]) :
    (unknownsOfFamily f).length = 0 :=
  length_unknownsOfFamily_pos (m := 1) (q := 0x1000) (L := {0}) hpos hf (by decide) rfl (by decide)
    fun k => by simp [subOpcodeKnown_of_free h, Nat.mod_one]

/-- Settles O4: the decoder agrees with the check, and the check is counted family by family. -/
theorem unknownWordsAreTheListedOnes : Obligations.UnknownWordsAreTheListedOnes := by
  refine ⟨decode_unknown_iff, fun fc hfc => ?_⟩
  change (unknownsOfFamily fc.1).length = fc.2
  revert fc
  simp only [List.forall_mem_cons, List.not_mem_nil, false_imp_iff, implies_true, and_true]
  refine ⟨length_unknownsOfFamily_zero, length_unknownsOfFamily_5, length_unknownsOfFamily_8,
    length_unknownsOfFamily_9, length_unknownsOfFamily_E, length_unknownsOfFamily_F, ?_⟩
  refine ⟨?_, ?_, ?_, ?_, ?_, ?_, ?_, ?_, ?_, ?_⟩
  all_goals exact length_unknownsOfFamily_free (by decide) (by decide) (by decide)

end Sys2Proof

namespace Sys2Proof.Machine

/-! ## What an instruction can do to the fault, and what a step can -/

/-- An instruction keeps the fault, or raises one of its own and does nothing else; the fetch's code is never its own
(60_exceptions.md R200, R201). -/
theorem exec_fault_cases {i : Instr} {s t : State} (h : exec i s = .next t) :
    t.fault = s.fault ∨ ∃ c, t = raiseFault c s ∧ c ≠ .pcOutOfRange := by
  cases i with
  | cls | jpNnn | seVxNn | sneVxNn | seVxVy | sneVxVy | ldVxNn | addVxNn | ldVxVy | orVxVy | andVxVy | xorVxVy
  | addVxVy | subVxVy | shrVx | subnVxVy | shlVx | ldINnn | jpV0Nnn | rndVxNn | ldVxDt | ldDtVx | ldStVx | addIVx =>
    cases h; exact .inl rfl
  | drwVxVyN | skpVx | sknpVx | ldFVx | ldBVx | ldMemVx =>
    rcases checkElse_cases h with ⟨-, rfl⟩ | ⟨-, rfl⟩
    · exact .inl rfl
    · exact .inr ⟨_, rfl, nofun⟩
  | ldVxMem =>
    rcases checkElse_cases h with ⟨-, rfl⟩ | ⟨-, rfl⟩
    · rw [advance_fault, loadRegs_fault]; exact .inl rfl
    · exact .inr ⟨_, rfl, nofun⟩
  | ret =>
    rcases hpop : pop? s with _ | ⟨a, u⟩ <;> rw [exec, execRet, hpop] at h <;> cases h
    · exact .inr ⟨_, rfl, nofun⟩
    · obtain ⟨-, -, rfl⟩ := pop?_cases hpop
      exact .inl rfl
  | callNnn =>
    rcases hpush : push? s (s.PC + 2) with _ | u <;> rw [exec, execCallNnn, hpush] at h <;> cases h
    · exact .inr ⟨_, rfl, nofun⟩
    · obtain ⟨-, rfl⟩ := push?_cases hpush
      exact .inl rfl
  | ldVxK =>
    rcases hkey : lowestKey? s with _ | k <;> rw [exec, execLdVxK, hkey] at h <;> cases h
    · exact .inl rfl
    · exact .inl rfl

theorem exec_fault_ne_pcOutOfRange {i : Instr} {s t : State} (h : exec i s = .next t) (hs : s.running) :
    t.fault ≠ some .pcOutOfRange := by
  rcases exec_fault_cases h with e | ⟨c, rfl, hc⟩
  · rw [e, hs]; nofun
  · exact fun e => hc (Option.some.inj e)

/-- A core that is not stopped takes a step. -/
theorem step_next {s : State} (h : s.running) : ∃ t, step s = .next t := by
  by_cases hp : s.PC.toNat ≤ 0xFFE
  · rcases hd : decode (fetchWord s) with i | op
    · obtain ⟨u, hu⟩ := exec_next i s
      exact ⟨endCycle u, by rw [step_executes ⟨h, hp, hd⟩, hu]; rfl⟩
    · exact ⟨_, step_unknown h hp hd⟩
  · exact ⟨_, step_fetch_fault h (by omega)⟩

/-- A step whose fetch is in memory does not end in the fetch's fault. -/
theorem step_fault_ne_pcOutOfRange {s t : State} (h : step s = .next t) (hp : s.PC.toNat ≤ 0xFFE) :
    t.fault ≠ some .pcOutOfRange := by
  obtain ⟨hr, ⟨hlt, -⟩ | ⟨-, -, rfl⟩ | ⟨i, u, -, hu, hend⟩⟩ := step_cases h
  · omega
  · rw [tick_fault, advance_fault, hr]; nofun
  · have hne := exec_fault_ne_pcOutOfRange hu hr
    obtain ⟨-, rfl⟩ | ⟨-, rfl⟩ := hend
    · exact hne
    · exact hne

/-- Settles O8: past the end of memory the step is the fetch's fault; before it, no step ends in that fault. -/
theorem fetchIsBigEndianAndStaysInMemory : Obligations.FetchIsBigEndianAndStaysInMemory := by
  intro s hr
  refine ⟨?_, fun hp => step_fetch_fault hr (by omega), fun hp => ?_⟩
  · rw [fetchWord_eq, wordOfBytes_toNat]
  · obtain ⟨t, ht⟩ := step_next hr
    exact ⟨t, ht, step_fault_ne_pcOutOfRange ht (by omega)⟩

/-! ## The report of an unknown opcode -/

/-- A cycle reports exactly where it fetches an unknown word (10_state.md R36). -/
theorem reportOut_eq_some_iff {s : State} {r : Report} :
    reportOut s = some r ↔
      s.running ∧ s.PC.toNat ≤ 0xFFE ∧ decode (fetchWord s) = .unknown (fetchWord s) ∧ r = ⟨s.PC, fetchWord s⟩ := by
  unfold reportOut
  constructor
  · intro h
    split at h
    · next hc =>
      obtain ⟨hf, hp⟩ := Bool.and_eq_true_iff.1 hc
      rcases hd : decode (fetchWord s) with i | op <;> rw [hd] at h <;> cases h
      obtain rfl := decode_unknown hd
      exact ⟨Option.isNone_iff_eq_none.1 hf, (fetchInRange_iff s).1 hp, rfl, rfl⟩
    · cases h
  · rintro ⟨hf, hp, hd, rfl⟩
    rw [if_pos (by rw [hf, (fetchInRange_iff s).2 hp]; rfl), hd]
    rfl

theorem partsKeptBut_tick_advance (s : State) : PartsKeptBut [.delay, .sound] s (tick (advance s)) := by
  intro p hp
  cases p with
  | delay | sound => exact absurd (by decide) hp
  | index | slots | sp | keys | display | fault | draws => rfl

theorem onlyWrites_tick_advance (s : State) : OnlyWrites [] [.delay, .sound] s (tick (advance s)) :=
  ⟨fun _ _ => rfl, partsKeptBut_tick_advance s, fun _ => rfl⟩

/-- Settles O7: an unknown word's step is `PC + 2` and the tick, and the report names exactly that case. -/
theorem unknownOpcodeIsReportedAndPassedOver : Obligations.UnknownOpcodeIsReportedAndPassedOver := by
  intro s hr
  refine ⟨fun op hp hd => ?_, fun r h => ?_⟩
  · obtain rfl := decode_unknown hd
    exact ⟨_, step_unknown hr hp hd, reportOut_eq_some_iff.2 ⟨hr, hp, hd, rfl⟩, rfl, rfl, onlyWrites_tick_advance s,
      tickTimer_toNat s.DT, tickTimer_toNat s.ST⟩
  · obtain ⟨-, hp, hd, rfl⟩ := reportOut_eq_some_iff.1 h
    exact ⟨hp, rfl, rfl, hd⟩

end Sys2Proof.Machine

/-!
PROOFS of the family 40_control_flow: the transfers and the return stack (R80 to R82, R87), the skips (R83 to R86).
-/

namespace Sys2Proof.Machine

/-! ## A jump and a skip write `PC` alone -/

theorem OnlyWrites.refl (rs : List Reg) (ps : List Part) (s : State) : OnlyWrites rs ps s s :=
  ⟨fun _ _ => rfl, fun p _ => by cases p <;> rfl, fun _ => rfl⟩

/-- `PC` is in every frame, so a transfer adds nothing to what was written before it. -/
theorem OnlyWrites.jumpTo {rs : List Reg} {ps : List Part} {s t : State} (h : OnlyWrites rs ps s t) (a : Word) :
    OnlyWrites rs ps s (jumpTo t a) := by
  obtain ⟨hregs, hparts, hmem⟩ := h
  refine ⟨hregs, fun p hp => ?_, hmem⟩
  have hkept := hparts p hp
  cases p <;> exact hkept

theorem onlyWrites_skipIf (c : Bool) (s : State) : OnlyWrites [] [] s (skipIf c s) :=
  (OnlyWrites.refl [] [] s).jumpTo _

/-! ## The transfers without the stack -/

/-- Settles O15. -/
theorem jumpSetsThePC : Obligations.JumpSetsThePC := fun nnn s =>
  ⟨jumpTo s (targetAddr nnn), rfl, targetAddr_toNat nnn, (OnlyWrites.refl [] [] s).jumpTo _⟩

/-- The mask of Bnnn is the remainder by 4096; the sum before it does not wrap at 16 bits. -/
theorem offsetTarget_toNat (nnn : Imm12) (v : Byte) :
    (offsetTarget nnn v).toNat = (nnn.toNat + v.toNat) % 4096 := by
  have hmask (n : Nat) : n &&& 0xFFF = n % 4096 := Nat.and_two_pow_sub_one_eq_mod n 12
  rw [offsetTarget, BitVec.toNat_and, BitVec.toNat_add, targetAddr_toNat, BitVec.toNat_setWidth,
    show (0xFFF : Word).toNat = 0xFFF from rfl, hmask]
  omega

/-- Settles O20. -/
theorem offsetJumpIsMaskedToMemory : Obligations.OffsetJumpIsMaskedToMemory := fun nnn s =>
  ⟨jumpTo s (offsetTarget nnn (readV s 0)), rfl, offsetTarget_toNat nnn _, (OnlyWrites.refl [] [] s).jumpTo _⟩

/-! ## The skips -/

/-- An instruction whose meaning is the skip rule goes to `PC + 4` where its condition holds, else to `PC + 2`. -/
theorem exec_skips_iff {i : Instr} {s : State} {c : Bool} {p : Prop} [Decidable p]
    (hexec : exec i s = .next (skipIf c s)) (hc : c = true ↔ p) :
    ∃ t, exec i s = .next t ∧ t.PC = (if p then s.PC + 4 else s.PC + 2) ∧ OnlyWrites [] [] s t :=
  ⟨skipIf c s, hexec, (skipIf_PC c s).trans (if_congr hc rfl rfl), onlyWrites_skipIf c s⟩

/-- Settles O18: the two conditions are Boolean equality and inequality with the immediate. -/
theorem immediateSkipsCompareTheRegister : Obligations.ImmediateSkipsCompareTheRegister := fun _ _ _ =>
  ⟨exec_skips_iff rfl beq_iff_eq, exec_skips_iff rfl bne_iff_ne⟩

/-- Settles O19: the two conditions are Boolean equality and inequality of the registers. -/
theorem registerSkipsCompareTwoRegisters : Obligations.RegisterSkipsCompareTwoRegisters := fun _ _ _ =>
  ⟨exec_skips_iff rfl beq_iff_eq, exec_skips_iff rfl bne_iff_ne⟩

/-! ## A push and a pop that succeed -/

theorem push?_of_lt {s : State} (h : s.SP.val < 16) (a : Word) : ∃ t, push? s a = some t :=
  ⟨_, dif_pos h⟩

theorem pop?_of_pos {s : State} (h : 0 < s.SP.val) : ∃ a t, pop? s = some (a, t) :=
  ⟨_, _, dif_pos h⟩

theorem onlyWrites_push? {s t : State} {a : Word} (h : push? s a = some t) : OnlyWrites [] [.slots, .sp] s t := by
  obtain ⟨-, rfl⟩ := push?_cases h
  refine ⟨fun _ _ => rfl, fun p hp => ?_, fun _ => rfl⟩
  cases p with
  | slots | sp => exact absurd (by decide) hp
  | index | delay | sound | keys | display | fault | draws => rfl

theorem onlyWrites_pop? {s t : State} {a : Word} (h : pop? s = some (a, t)) : OnlyWrites [] [.sp] s t := by
  obtain ⟨-, -, rfl⟩ := pop?_cases h
  refine ⟨fun _ _ => rfl, fun p hp => ?_, fun _ => rfl⟩
  cases p with
  | sp => exact absurd (by decide) hp
  | index | slots | delay | sound | keys | display | fault | draws => rfl

/-- `SP` counts the occupied slots, so before the push it names the first free one (R17). -/
theorem push?_getElem?_same {s t : State} {a : Word} (h : push? s a = some t) : t.stack[s.SP.val]? = some a := by
  obtain ⟨lt, rfl⟩ := push?_cases h
  exact Vector.getElem?_set_self lt

theorem push?_getElem?_other {s t : State} {a : Word} (h : push? s a = some t) {k : Nat} (hk : k ≠ s.SP.val) :
    t.stack[k]? = s.stack[k]? := by
  obtain ⟨lt, rfl⟩ := push?_cases h
  exact Vector.getElem?_set_ne lt hk.symm

theorem push?_SP {s t : State} {a : Word} (h : push? s a = some t) : t.SP.val = s.SP.val + 1 := by
  obtain ⟨-, rfl⟩ := push?_cases h
  rfl

/-- The popped value is the one in the topmost occupied slot. -/
theorem pop?_getElem? {s t : State} {a : Word} (h : pop? s = some (a, t)) : s.stack[s.SP.val - 1]? = some a := by
  obtain ⟨-, rfl, -⟩ := pop?_cases h
  exact Vector.getElem?_eq_getElem _

theorem pop?_SP {s t : State} {a : Word} (h : pop? s = some (a, t)) : t.SP.val = s.SP.val - 1 := by
  obtain ⟨-, -, rfl⟩ := pop?_cases h
  rfl

/-! ## RET and CALL, by what the stack answers -/

theorem exec_ret_of_pop? {s t : State} {a : Word} (h : pop? s = some (a, t)) : exec .ret s = .next (jumpTo t a) := by
  rw [exec, execRet, h]

theorem exec_ret_empty {s : State} (h : pop? s = none) : exec .ret s = .next (raiseFault .stackUnderflow s) := by
  rw [exec, execRet, h]

theorem exec_callNnn_of_push? {s t : State} (h : push? s (s.PC + 2) = some t) (nnn : Imm12) :
    exec (.callNnn nnn) s = .next (jumpTo t (targetAddr nnn)) := by
  rw [exec, execCallNnn, h]

theorem exec_callNnn_full {s : State} (h : push? s (s.PC + 2) = none) (nnn : Imm12) :
    exec (.callNnn nnn) s = .next (raiseFault .stackOverflow s) := by
  rw [exec, execCallNnn, h]

/-- Settles O14: the return is a pop and a jump to the popped value. -/
theorem returnResumesAtThePoppedAddress : Obligations.ReturnResumesAtThePoppedAddress := by
  intro s
  refine ⟨fun hpos => ?_, fun hzero => exec_ret_empty (pop?_empty (Fin.ext hzero))⟩
  obtain ⟨a, t, hpop⟩ := pop?_of_pos hpos
  refine ⟨jumpTo t a, exec_ret_of_pop? hpop, ?_, ?_, (onlyWrites_pop? hpop).jumpTo a⟩
  · rw [jumpTo_SP, pop?_SP hpop]
  · rw [jumpTo_PC, pop?_getElem? hpop]

/-- Settles O16: the call is a push of `PC + 2` and a jump. -/
theorem callPushesTheNextAddress : Obligations.CallPushesTheNextAddress := by
  intro nnn s
  refine ⟨fun hroom => ?_, fun hfull => exec_callNnn_full (push?_full (Fin.ext hfull) _) nnn⟩
  obtain ⟨t, hpush⟩ := push?_of_lt hroom (s.PC + 2)
  refine ⟨jumpTo t (targetAddr nnn), exec_callNnn_of_push? hpush nnn, ?_, fun k hk => ?_, ?_, targetAddr_toNat nnn,
    (onlyWrites_push? hpush).jumpTo _⟩
  · rw [jumpTo_stack, push?_getElem?_same hpush]
  · rw [jumpTo_stack, push?_getElem?_other hpush hk]
  · rw [jumpTo_SP, push?_SP hpush]

end Sys2Proof.Machine

/-!
PROOFS of the family 41_alu: register loads, arithmetic and logic (R100 to R112).
-/

namespace Sys2Proof.Machine

/-! ## What a register write keeps -/

/-- A write to a register of the frame stays in the frame. -/
theorem OnlyWrites.writeV {rs : List Reg} {ps : List Part} {s t : State} (h : OnlyWrites rs ps s t) {x : Reg}
    (hx : x ∈ rs) (v : Byte) : OnlyWrites rs ps s (writeV t x v) := by
  obtain ⟨hregs, hparts, hmem⟩ := h
  refine ⟨fun r hr => ?_, fun p hp => ?_, hmem⟩
  · rw [readV_writeV_other (ne_of_mem_of_not_mem hx hr).symm, hregs r hr]
  · have hkept := hparts p hp
    cases p <;> exact hkept

/-- `PC + 2` is a jump to the next instruction. -/
theorem OnlyWrites.advance {rs : List Reg} {ps : List Part} {s t : State} (h : OnlyWrites rs ps s t) :
    OnlyWrites rs ps s (advance t) :=
  h.jumpTo (t.PC + 2)

/-! ## The two shapes of an instruction of this family -/

/-- An instruction whose meaning is `V[x] <- r`: `Vx` has every property of `r`, and nothing else but `PC` changes. -/
theorem exec_setReg {i : Instr} {s : State} {x : Reg} {r : Byte} (p : Byte → Prop)
    (hexec : exec i s = setReg x r s) (hr : p r) :
    ∃ t, exec i s = .next t ∧ p (readV t x) ∧ t.PC = s.PC + 2 ∧ OnlyWrites [x] [] s t := by
  refine ⟨advance (writeV s x r), hexec, ?_, rfl, ((OnlyWrites.refl _ _ s).writeV List.mem_cons_self r).advance⟩
  rwa [readV_advance, readV_writeV_same]

/-- An instruction whose meaning is `V[x] <- r ; VF <- f`: the flag is written last, so it is what VF holds where
`x = F`. -/
theorem exec_setRegFlag {i : Instr} {s : State} {x : Reg} {r : Byte} {f : Bool} {n m : Nat}
    (hexec : exec i s = setRegFlag x r f s) (hr : r.toNat = n) (hf : (flagByte f).toNat = m) :
    ∃ t, exec i s = .next t ∧ (x ≠ Reg.flag → (readV t x).toNat = n) ∧ (readV t Reg.flag).toNat = m ∧
      t.PC = s.PC + 2 ∧ OnlyWrites [x, Reg.flag] [] s t := by
  refine ⟨advance (writeVThenFlag s x r f), hexec, fun hx => ?_, ?_, rfl, ?_⟩
  · rw [readV_advance, readV_writeVThenFlag_dest hx, hr]
  · rw [readV_advance, readV_writeVThenFlag_flag, hf]
  · exact (((OnlyWrites.refl _ _ s).writeV List.mem_cons_self r).writeV (by simp) (flagByte f)).advance

/-! ## The results and the flags as numbers -/

/-- The difference wraps from below 0 by one 256. -/
theorem sub_toNat (a b : Byte) : (a - b).toNat = (a.toNat + 256 - b.toNat) % 256 := by
  rw [BitVec.toNat_sub]
  omega

theorem ushiftRight_one_toNat (a : Byte) : (a >>> 1).toNat = a.toNat / 2 := by
  rw [BitVec.toNat_ushiftRight, Nat.shiftRight_one]

theorem shiftLeft_one_toNat (a : Byte) : (a <<< 1).toNat = a.toNat * 2 % 256 := by
  rw [BitVec.toNat_shiftLeft, Nat.shiftLeft_eq]

theorem flagByte_carryFlag_toNat (a b : Byte) :
    (flagByte (carryFlag a b)).toNat = if a.toNat + b.toNat > 255 then 1 else 0 := by
  simp only [flagByte_toNat, carryFlag, decide_eq_true_eq]

theorem flagByte_noBorrowFlag_toNat (a b : Byte) :
    (flagByte (noBorrowFlag a b)).toNat = if a.toNat ≥ b.toNat then 1 else 0 := by
  simp only [flagByte_toNat, noBorrowFlag, decide_eq_true_eq]

/-- A flag that is a bit of a byte is that binary digit. -/
theorem flagByte_getLsbD_toNat (a : Byte) (k : Nat) : (flagByte (a.getLsbD k)).toNat = a.toNat / 2 ^ k % 2 := by
  rw [flagByte_toNat, ← Nat.toNat_testBit, BitVec.testBit_toNat, Bool.toNat, Bool.cond_eq_ite]

theorem flagByte_shiftedOutRight_toNat (a : Byte) : (flagByte (shiftedOutRight a)).toNat = a.toNat % 2 := by
  rw [shiftedOutRight, flagByte_getLsbD_toNat, pow_zero, Nat.div_one]

/-- Bit 7 is the highest, so nothing of the quotient is cut off. -/
theorem flagByte_shiftedOutLeft_toNat (a : Byte) : (flagByte (shiftedOutLeft a)).toNat = a.toNat / 128 := by
  rw [shiftedOutLeft, flagByte_getLsbD_toNat]
  omega

/-! ## The statements -/

/-- Settles O22: both are a plain register write, of the immediate and of the wrapping sum. -/
theorem immediateLoadAndAddWriteVx : Obligations.ImmediateLoadAndAddWriteVx := fun _ _ _ =>
  ⟨exec_setReg (· = _) rfl rfl, exec_setReg (·.toNat = _) rfl (BitVec.toNat_add _ _)⟩

/-- Settles O23: all four are a plain register write, and the word operation acts on each bit. -/
theorem copyAndLogicWriteVx : Obligations.CopyAndLogicWriteVx := by
  intro x y s
  refine ⟨?_, ?_, ?_, ?_⟩
  · exact exec_setReg (· = _) rfl rfl
  · exact exec_setReg (fun v => ∀ k, v.getLsbD k = ((readV s x).getLsbD k || (readV s y).getLsbD k)) rfl
      fun _ => BitVec.getLsbD_or
  · exact exec_setReg (fun v => ∀ k, v.getLsbD k = ((readV s x).getLsbD k && (readV s y).getLsbD k)) rfl
      fun _ => BitVec.getLsbD_and
  · exact exec_setReg (fun v => ∀ k, v.getLsbD k = ((readV s x).getLsbD k ^^ (readV s y).getLsbD k)) rfl
      fun _ => BitVec.getLsbD_xor

/-- Settles O24. -/
theorem addWritesSumThenCarry : Obligations.AddWritesSumThenCarry := fun _ _ _ =>
  exec_setRegFlag rfl (BitVec.toNat_add _ _) (flagByte_carryFlag_toNat _ _)

/-- Settles O25: SUBN is SUB with the operands exchanged, in the difference and in the flag. -/
theorem subtractsWriteDifferenceThenNoBorrow : Obligations.SubtractsWriteDifferenceThenNoBorrow := fun _ _ _ =>
  ⟨exec_setRegFlag rfl (sub_toNat _ _) (flagByte_noBorrowFlag_toNat _ _),
    exec_setRegFlag rfl (sub_toNat _ _) (flagByte_noBorrowFlag_toNat _ _)⟩

/-- Settles O26: a shift by one is a division or a product by 2, and the flag is the digit it drops. -/
theorem shiftsWriteResultThenBitPushedOut : Obligations.ShiftsWriteResultThenBitPushedOut := fun _ _ _ =>
  ⟨exec_setRegFlag rfl (ushiftRight_one_toNat _) (flagByte_shiftedOutRight_toNat _),
    exec_setRegFlag rfl (shiftLeft_one_toNat _) (flagByte_shiftedOutLeft_toNat _)⟩

end Sys2Proof.Machine

/-!
PROOFS of the family 42_index_memory: the index register (R130, R131, R132) and the transfers through it (R133 to R135).
-/

namespace Sys2Proof.Machine

/-! ## The index register -/

/-- Where the index register is in the frame, a write to it stays in the frame. -/
theorem OnlyWrites.writeI {rs : List Reg} {ps : List Part} {s t : State} (h : OnlyWrites rs ps s t)
    (hi : Part.index ∈ ps) (a : Word) : OnlyWrites rs ps s (writeI t a) := by
  obtain ⟨hregs, hparts, hmem⟩ := h
  refine ⟨hregs, fun p hp => ?_, hmem⟩
  have hkept := hparts p hp
  cases p with
  | index => exact absurd hi hp
  | slots | sp | delay | sound | keys | display | fault | draws => exact hkept

theorem onlyWrites_writeI (s : State) (a : Word) (rs : List Reg) : OnlyWrites rs [.index] s (writeI s a) :=
  (OnlyWrites.refl rs [.index] s).writeI List.mem_cons_self a

/-- A byte added to a word wraps at 16 bits; the widened byte keeps its value. -/
theorem add_setWidth_toNat (i : Word) (v : Byte) : (i + v.setWidth 16).toNat = (i.toNat + v.toNat) % 0x10000 := by
  rw [BitVec.toNat_add, BitVec.toNat_setWidth]
  omega

theorem flagByte_indexOverflowFlag_toNat (i : Word) (v : Byte) :
    (flagByte (indexOverflowFlag i v)).toNat = if i.toNat + v.toNat > 0xFFF then 1 else 0 := by
  simp only [flagByte_toNat, indexOverflowFlag, decide_eq_true_eq]

/-- Settles O29. -/
theorem loadIndexWritesI : Obligations.LoadIndexWritesI := fun nnn s =>
  ⟨advance (writeI s (targetAddr nnn)), rfl, targetAddr_toNat nnn, rfl, (onlyWrites_writeI s _ []).advance⟩

/-- Settles O30: the sum wraps in `I`, the flag compares it unwrapped, and VF is written after its old value is read. -/
theorem addIndexWrapsAndFlagsPastMemory : Obligations.AddIndexWrapsAndFlagsPastMemory := by
  intro x s
  refine ⟨_, rfl, add_setWidth_toNat s.I (readV s x), ?_, rfl, ?_⟩
  · rw [readV_advance, readV_writeV_same, flagByte_indexOverflowFlag_toNat]
  · exact ((onlyWrites_writeI s _ _).writeV List.mem_cons_self _).advance

/-! ## An instruction behind a bound check -/

/-- An instruction that checks a bound before it writes: within the bound it answers its own state `t`, and past the
bound the fault with all else unchanged. -/
theorem exec_checked {i : Instr} {s t : State} {cond : Bool} {code : FaultCode} {n bound : Nat} {post : State → Prop}
    (hexec : exec i s = checkElse cond code s t) (hcond : cond = true ↔ n ≤ bound) (hpost : post t) :
    (n ≤ bound → ∃ u, exec i s = .next u ∧ post u) ∧
    (bound < n → exec i s = .next { s with fault := some code }) := by
  refine ⟨fun hle => ⟨t, ?_, hpost⟩, fun hlt => ?_⟩
  · rw [hexec, hcond.2 hle, checkElse_true]
  · have hfalse : cond = false := Bool.eq_false_iff.2 fun h => Nat.not_le.2 hlt (hcond.1 h)
    rw [hexec, hfalse, checkElse_false, raiseFault]

/-- Settles O31: the check is on the digit, and the glyphs lie five bytes apart from 0. -/
theorem fontGlyphAddressIsFiveTimesTheDigit : Obligations.FontGlyphAddressIsFiveTimesTheDigit := fun x s =>
  exec_checked rfl (inSixteen_iff (readV s x)) ⟨glyphAddr_toNat, rfl, (onlyWrites_writeI s _ []).advance⟩

/-! ## The stores through `I` -/

theorem PartsKeptBut.advance {ps : List Part} {s t : State} (h : PartsKeptBut ps s t) :
    PartsKeptBut ps s (advance t) := by
  intro p hp
  have hkept := h p hp
  cases p <;> exact hkept

/-- The frame of an instruction that stores `n` bytes from `a` and goes on. -/
theorem storeBytes_advance_frame (s : State) (a : Nat) {bs : List Byte} {n : Nat} (hn : bs.length = n) :
    MemKeptBut a n s (advance (storeBytes s a bs)) ∧ (advance (storeBytes s a bs)).PC = s.PC + 2 ∧
      RegsKeptBut [] s (advance (storeBytes s a bs)) ∧ PartsKeptBut [] s (advance (storeBytes s a bs)) := by
  refine ⟨?_, rfl, regsKeptBut_storeBytes s a bs [], (partsKeptBut_storeBytes s a bs []).advance⟩
  rw [← hn]
  exact memKeptBut_storeBytes s a bs

/-- A number below 256 keeps its value in the byte that stores it. -/
theorem read_storeBytes_toNat {bs : List Byte} {k n : Nat} (h : bs[k]? = some (BitVec.ofNat 8 n)) (hn : n < 256)
    (s : State) (a : Nat) : ((storeBytes s a bs).mem.read (a + k)).toNat = n := by
  rw [read_storeBytes_of_getElem? h, BitVec.toNat_ofNat, Nat.mod_eq_of_lt hn]

/-- Settles O32: a checked store of the three digits. -/
theorem bcdStoresThreeDigits : Obligations.BcdStoresThreeDigits := by
  intro x s
  refine exec_checked rfl (indexInRange_iff s 2) ⟨?hundreds, ?tens, ?ones, ?frame⟩
  case hundreds => exact read_storeBytes_toNat (k := 0) rfl (by omega) s s.I.toNat
  case tens => exact read_storeBytes_toNat (k := 1) rfl (by omega) s s.I.toNat
  case ones => exact read_storeBytes_toNat (k := 2) rfl (by omega) s s.I.toNat
  case frame => exact storeBytes_advance_frame s s.I.toNat (bcdDigits_length _)

theorem regsUpTo_getElem? (s : State) {x k : Reg} (h : k ≤ x) : (regsUpTo s x)[k.val]? = some (readV s k) := by
  rw [← regsUpTo_getElem s x k h, List.getElem?_eq_getElem]

/-- Settles O33: a checked store of V0 to Vx. -/
theorem registerStoreWritesV0ToVx : Obligations.RegisterStoreWritesV0ToVx := by
  intro x s
  refine exec_checked rfl (indexInRange_iff s x.val) ⟨fun k hk => ?_, ?_⟩
  · exact read_storeBytes_of_getElem? (regsUpTo_getElem? s hk) s s.I.toNat
  · exact storeBytes_advance_frame s s.I.toNat (regsUpTo_length s x)

/-! ## The load through `I` -/

theorem partsKeptBut_loadRegs (s : State) (x : Reg) (a : Nat) : PartsKeptBut [] s (loadRegs s x a) := by
  intro p _
  cases p <;> simp [Part.kept]

/-- Settles O34: a checked load of V0 to Vx, which writes registers alone. -/
theorem registerLoadReadsV0ToVx : Obligations.RegisterLoadReadsV0ToVx := by
  intro x s
  refine exec_checked rfl (indexInRange_iff s x.val) ⟨fun k hk => ?_, fun k hk => ?_, ?_, ?_, fun a => ?_⟩
  · rw [readV_advance, readV_loadRegs, if_pos hk]
  · rw [readV_advance, readV_loadRegs, if_neg (Fin.not_le.2 hk)]
  · rw [advance_PC, loadRegs_PC]
  · exact (partsKeptBut_loadRegs s x s.I.toNat).advance
  · rw [advance_mem, loadRegs_mem]

end Sys2Proof.Machine

/-!
PROOFS of the family 43_display: the clear screen (R150) and the draw (R151 to R153). A draw is a run of toggles, and
no two 1 bits of a sprite of at most 32 rows fall on one pixel, so each toggle finds its pixel as the draw found it.
-/

namespace Sys2Proof.Machine

/-! ## What a frame buffer write keeps -/

theorem onlyWrites_fb (s : State) (fb : FrameBuffer) (rs : List Reg) :
    OnlyWrites rs [.display] s { s with fb := fb } := by
  refine ⟨fun _ _ => rfl, fun p hp => ?_, fun _ => rfl⟩
  cases p with
  | display => exact absurd List.mem_cons_self hp
  | index | slots | sp | delay | sound | keys | fault | draws => rfl

/-- Settles O39. -/
theorem clearTurnsEveryPixelOff : Obligations.ClearTurnsEveryPixelOff := fun s =>
  ⟨_, rfl, FrameBuffer.pixel_clear, rfl, (onlyWrites_fb s FrameBuffer.clear []).advance⟩

/-! ## A run of toggles -/

theorem Drawing.pixel_toggle (d : Drawing) (p q : Fin 32 × Fin 64) :
    (d.toggle p.1 p.2).fb.pixel q.1 q.2 = if q = p then !(d.fb.pixel q.1 q.2) else d.fb.pixel q.1 q.2 := by
  rw [Drawing.toggle, FrameBuffer.pixel_setPixel]
  by_cases h : q = p
  · rw [h, if_pos ⟨rfl, rfl⟩, if_pos rfl]
  · rw [if_neg fun e => h (Prod.ext e.1 e.2), if_neg h]

/-- The pixels of a list, toggled in order. -/
def Drawing.toggles (d : Drawing) (ps : List (Fin 32 × Fin 64)) : Drawing :=
  ps.foldl (fun d p => d.toggle p.1 p.2) d

theorem Drawing.toggles_cons (d : Drawing) (p : Fin 32 × Fin 64) (ps : List (Fin 32 × Fin 64)) :
    d.toggles (p :: ps) = (d.toggle p.1 p.2).toggles ps := rfl

theorem Drawing.toggles_append (d : Drawing) (ps qs : List (Fin 32 × Fin 64)) :
    d.toggles (ps ++ qs) = (d.toggles ps).toggles qs := List.foldl_append

theorem Drawing.pixel_toggles {ps : List (Fin 32 × Fin 64)} (h : ps.Nodup) (d : Drawing) (q : Fin 32 × Fin 64) :
    (d.toggles ps).fb.pixel q.1 q.2 = if q ∈ ps then !(d.fb.pixel q.1 q.2) else d.fb.pixel q.1 q.2 := by
  induction ps generalizing d with
  | nil => rfl
  | cons p ps ih =>
    obtain ⟨hp, hps⟩ := List.nodup_cons.1 h
    rw [Drawing.toggles_cons, ih hps, Drawing.pixel_toggle]
    by_cases hq : q = p
    · simp [hq, hp]
    · simp [hq]

/-- A later toggle of another pixel does not change whether this one collides. -/
theorem Drawing.collision_toggles {ps : List (Fin 32 × Fin 64)} (h : ps.Nodup) (d : Drawing) :
    (d.toggles ps).collision = true ↔ d.collision = true ∨ ∃ p ∈ ps, d.fb.pixel p.1 p.2 = true := by
  induction ps generalizing d with
  | nil => simp [Drawing.toggles]
  | cons p ps ih =>
    obtain ⟨hp, hps⟩ := List.nodup_cons.1 h
    have hrest : (∃ q ∈ ps, (d.toggle p.1 p.2).fb.pixel q.1 q.2 = true) ↔ ∃ q ∈ ps, d.fb.pixel q.1 q.2 = true :=
      exists_congr fun q => and_congr_right fun hq => by
        rw [Drawing.pixel_toggle, if_neg (ne_of_mem_of_not_mem hq hp)]
    rw [Drawing.toggles_cons, ih hps, hrest, List.exists_mem_cons_iff, ← or_assoc, Drawing.toggle, Bool.or_eq_true]

/-! ## The pixels of a sprite -/

/-- The pixels under the 1 bits of one row byte, left to right. -/
def rowPixels (ox oy r : Nat) (byte : Byte) : List (Fin 32 × Fin 64) :=
  ((List.range 8).filter (rowBit byte)).map fun b => (spriteLine oy r, spriteColumn ox b)

/-- The pixels under the 1 bits of the rows that are left, the first of them row `r`. -/
def spritePixels (ox oy : Nat) : (r : Nat) → List Byte → List (Fin 32 × Fin 64)
  | _, [] => []
  | r, byte :: rest => rowPixels ox oy r byte ++ spritePixels ox oy (r + 1) rest

theorem Drawing.row_eq_toggles (d : Drawing) (ox oy r : Nat) (byte : Byte) :
    d.row ox oy r byte = d.toggles (rowPixels ox oy r byte) := by
  rw [Drawing.row, Drawing.toggles, rowPixels, List.foldl_map, List.foldl_filter]

theorem Drawing.rows_eq_toggles (d : Drawing) (ox oy r : Nat) (bytes : List Byte) :
    d.rows ox oy r bytes = d.toggles (spritePixels ox oy r bytes) := by
  induction bytes generalizing d r with
  | nil => rfl
  | cons byte rest ih =>
    rw [Drawing.rows, ih, Drawing.row_eq_toggles, ← Drawing.toggles_append, spritePixels]

theorem mem_rowPixels {ox oy r : Nat} {byte : Byte} {p : Fin 32 × Fin 64} :
    p ∈ rowPixels ox oy r byte ↔
      ∃ b < 8, rowBit byte b = true ∧ (ox + b) % 64 = p.2.val ∧ (oy + r) % 32 = p.1.val := by
  simp only [rowPixels, List.mem_map, List.mem_filter, List.mem_range, and_assoc, Prod.ext_iff, Fin.ext_iff]
  refine exists_congr fun b => and_congr_right fun _ => and_congr_right fun _ => ?_
  exact and_comm

theorem mem_spritePixels {ox oy r : Nat} {bytes : List Byte} {p : Fin 32 × Fin 64} :
    p ∈ spritePixels ox oy r bytes ↔ ∃ k byte, bytes[k]? = some byte ∧ p ∈ rowPixels ox oy (r + k) byte := by
  induction bytes generalizing r with
  | nil => simp [spritePixels]
  | cons byte rest ih =>
    rw [spritePixels, List.mem_append, ih]
    conv_rhs => rw [← Nat.or_exists_add_one]
    simp [Nat.add_assoc, Nat.add_comm 1]

/-- Eight columns do not wrap round to the first of them. -/
theorem nodup_rowPixels (ox oy r : Nat) (byte : Byte) : (rowPixels ox oy r byte).Nodup := by
  refine List.Nodup.map_on (fun b hb c hc h => ?_) (List.nodup_range.filter _)
  have hb : b < 8 := List.mem_range.1 (List.mem_of_mem_filter hb)
  have hc : c < 8 := List.mem_range.1 (List.mem_of_mem_filter hc)
  have hcol : (ox + b) % 64 = (ox + c) % 64 := congrArg (fun p => p.2.val) h
  omega

/-- At most 32 rows do not wrap round to the first of them. -/
theorem nodup_spritePixels (ox oy r : Nat) {bytes : List Byte} (h : bytes.length ≤ 32) :
    (spritePixels ox oy r bytes).Nodup := by
  induction bytes generalizing r with
  | nil => exact List.nodup_nil
  | cons byte rest ih =>
    rw [List.length_cons] at h
    refine (nodup_rowPixels ox oy r byte).append (ih (r + 1) (by omega)) fun p hrow hrest => ?_
    obtain ⟨k, byte', hk, hp⟩ := mem_spritePixels.1 hrest
    obtain ⟨hlt, -⟩ := List.getElem?_eq_some_iff.1 hk
    obtain ⟨-, -, -, -, hline⟩ := mem_rowPixels.1 hrow
    obtain ⟨-, -, -, -, hline'⟩ := mem_rowPixels.1 hp
    omega

/-! ## The draw -/

/-- The pixels the draw toggles, in its order. -/
def drawnPixels (x y : Reg) (n : Nat) (s : State) : List (Fin 32 × Fin 64) :=
  spritePixels ((readV s x).toNat % 64) ((readV s y).toNat % 32) 0 (spriteRows s n)

theorem spriteRows_getElem?_eq_some_iff {s : State} {n k : Nat} {byte : Byte} :
    (spriteRows s n)[k]? = some byte ↔ k < n ∧ s.mem.read (s.I.toNat + k) = byte := by
  simp [spriteRows, List.getElem?_eq_some_iff, Memory.readBytes_getElem]

theorem mem_drawnPixels {x y : Reg} {n : Nat} {s : State} {py : Fin 32} {px : Fin 64} :
    (py, px) ∈ drawnPixels x y n s ↔ spriteCovers s x y n py px := by
  simp only [drawnPixels, mem_spritePixels, mem_rowPixels, spriteRows_getElem?_eq_some_iff, spriteCovers, rowBit,
    Nat.zero_add, Nat.mod_add_mod]
  constructor
  · rintro ⟨r, _, ⟨hr, rfl⟩, b, hb, hbit, hcol, hline⟩
    exact ⟨r, b, hr, hb, hbit, hcol, hline⟩
  · rintro ⟨r, b, hr, hb, hbit, hcol, hline⟩
    exact ⟨r, _, ⟨hr, rfl⟩, b, hb, hbit, hcol, hline⟩

theorem nodup_drawnPixels (x y : Reg) {n : Nat} (hn : n ≤ 32) (s : State) : (drawnPixels x y n s).Nodup :=
  nodup_spritePixels _ _ 0 (by rwa [spriteRows, Memory.readBytes_length])

/-- The draw as a frame buffer write and then a flag. -/
theorem drawSprite_eq (x y : Reg) (n : Nat) (s : State) :
    drawSprite x y n s = writeV { s with fb := (Drawing.toggles ⟨s.fb, false⟩ (drawnPixels x y n s)).fb } Reg.flag
      (flagByte (Drawing.toggles ⟨s.fb, false⟩ (drawnPixels x y n s)).collision) := by
  simp only [drawSprite, Drawing.rows_eq_toggles, drawnPixels]

theorem onlyWrites_drawSprite (x y : Reg) (n : Nat) (s : State) :
    OnlyWrites [Reg.flag] [.display] s (drawSprite x y n s) := by
  rw [drawSprite_eq]
  exact (onlyWrites_fb s _ _).writeV List.mem_cons_self _

theorem drawSprite_PC (x y : Reg) (n : Nat) (s : State) : (drawSprite x y n s).PC = s.PC := rfl

theorem pixel_drawSprite_of_covers {x y : Reg} {n : Nat} (hn : n ≤ 32) {s : State} {py : Fin 32} {px : Fin 64}
    (h : spriteCovers s x y n py px) : (drawSprite x y n s).fb.pixel py px = !(s.fb.pixel py px) := by
  rw [drawSprite_eq, writeV_fb, Drawing.pixel_toggles (nodup_drawnPixels x y hn s) _ (py, px),
    if_pos (mem_drawnPixels.2 h)]

theorem pixel_drawSprite_of_not_covers {x y : Reg} {n : Nat} (hn : n ≤ 32) {s : State} {py : Fin 32} {px : Fin 64}
    (h : ¬ spriteCovers s x y n py px) : (drawSprite x y n s).fb.pixel py px = s.fb.pixel py px := by
  rw [drawSprite_eq, writeV_fb, Drawing.pixel_toggles (nodup_drawnPixels x y hn s) _ (py, px),
    if_neg (mt mem_drawnPixels.1 h)]

theorem flagByte_eq_one_iff (b : Bool) : flagByte b = 1 ↔ b = true := by cases b <;> decide

theorem flagByte_eq_zero_iff (b : Bool) : flagByte b = 0 ↔ ¬ b = true := by cases b <;> decide

theorem collision_drawnPixels {x y : Reg} {n : Nat} (hn : n ≤ 32) {s : State} :
    (Drawing.toggles ⟨s.fb, false⟩ (drawnPixels x y n s)).collision = true ↔
      ∃ py px, spriteCovers s x y n py px ∧ s.fb.pixel py px = true := by
  rw [Drawing.collision_toggles (nodup_drawnPixels x y hn s)]
  simp only [Bool.false_eq_true, false_or, Prod.exists, mem_drawnPixels]

theorem drawSprite_flag_eq_one_iff {x y : Reg} {n : Nat} (hn : n ≤ 32) {s : State} :
    readV (drawSprite x y n s) Reg.flag = 1 ↔ ∃ py px, spriteCovers s x y n py px ∧ s.fb.pixel py px = true := by
  rw [drawSprite_eq, readV_writeV_same, flagByte_eq_one_iff, collision_drawnPixels hn]

theorem drawSprite_flag_eq_zero_iff {x y : Reg} {n : Nat} (hn : n ≤ 32) {s : State} :
    readV (drawSprite x y n s) Reg.flag = 0 ↔ ∀ py px, spriteCovers s x y n py px → s.fb.pixel py px = false := by
  rw [drawSprite_eq, readV_writeV_same, flagByte_eq_zero_iff, collision_drawnPixels hn]
  simp only [not_exists, not_and, Bool.not_eq_true]

/-! ## The check before the draw -/

theorem drawCheck_iff (s : State) (n : Nat) :
    (n == 0 || indexInRange s (n - 1)) = true ↔ n = 0 ∨ s.I.toNat + n - 1 ≤ 0xFFF := by
  rw [Bool.or_eq_true, beq_iff_eq, indexInRange_iff]
  omega

theorem exec_drwVxVyN_of_inRange (x y : Reg) {n : Nibble} {s : State}
    (h : n.toNat = 0 ∨ s.I.toNat + n.toNat - 1 ≤ 0xFFF) :
    exec (.drwVxVyN x y n) s = .next (advance (drawSprite x y n.toNat s)) := by
  rw [exec, execDrwVxVyN, (drawCheck_iff s n.toNat).2 h, checkElse_true]

theorem exec_drwVxVyN_of_outOfRange (x y : Reg) {n : Nibble} {s : State} (hn : 0 < n.toNat)
    (h : 0xFFF < s.I.toNat + n.toNat - 1) :
    exec (.drwVxVyN x y n) s = .next (raiseFault .indexOutOfRange s) := by
  have hcheck : (n.toNat == 0 || indexInRange s (n.toNat - 1)) = false :=
    Bool.eq_false_iff.2 fun e => by have := (drawCheck_iff s n.toNat).1 e; omega
  rw [exec, execDrwVxVyN, hcheck, checkElse_false]

/-- Settles O40: the sprite has at most 15 rows, so its pixels are distinct and each is toggled once. -/
theorem drawTogglesThePixelsTheSpriteCovers : Obligations.DrawTogglesThePixelsTheSpriteCovers := by
  intro x y n s
  have hn : n.toNat ≤ 32 := by omega
  refine ⟨fun h => ⟨_, exec_drwVxVyN_of_inRange x y h, fun py px => ⟨?_, ?_⟩, ?_, ?_, ?_, ?_⟩,
    exec_drwVxVyN_of_outOfRange x y⟩
  · exact pixel_drawSprite_of_covers hn
  · exact pixel_drawSprite_of_not_covers hn
  · exact (drawSprite_flag_eq_one_iff hn).2
  · exact (drawSprite_flag_eq_zero_iff hn).2
  · rw [advance_PC, drawSprite_PC]
  · exact (onlyWrites_drawSprite x y n.toNat s).advance

end Sys2Proof.Machine

/-!
PROOFS of the family 44_timers_keypad: the key skips (R170, R171), the key-wait (R174) and the timer transfers (R172,
R175, R176).
-/

namespace Sys2Proof.Machine

/-! ## The key skips -/

/-- A skip behind the key check, with a key's number in the register. -/
theorem exec_keySkip_of_le {i : Instr} {s : State} {v : Byte} {c : Bool} {p : Prop} [Decidable p]
    (hexec : exec i s = checkElse (inSixteen v) .keyIndexOutOfRange s (skipIf c s)) (hv : v.toNat ≤ 0xF)
    (hc : c = true ↔ p) :
    ∃ t, exec i s = .next t ∧ t.PC = (if p then s.PC + 4 else s.PC + 2) ∧ OnlyWrites [] [] s t := by
  have hskip : exec i s = .next (skipIf c s) := by rw [hexec, (inSixteen_iff v).2 hv, checkElse_true]
  exact exec_skips_iff hskip hc

/-- A skip behind the key check, with a number in the register that no key has. -/
theorem exec_keySkip_of_lt {i : Instr} {s t : State} {v : Byte}
    (hexec : exec i s = checkElse (inSixteen v) .keyIndexOutOfRange s t) (hv : 0xF < v.toNat) :
    exec i s = .next { s with fault := some .keyIndexOutOfRange } :=
  (exec_checked (post := (· = t)) hexec (inSixteen_iff v) rfl).2 hv

/-- Settles O42: the number in the register picks the key, and SKNP has SKP's condition negated. -/
theorem keySkipsReadTheNamedKey : Obligations.KeySkipsReadTheNamedKey := by
  intro x s
  refine ⟨fun k hk => ?_, fun hv => ⟨exec_keySkip_of_lt rfl hv, exec_keySkip_of_lt rfl hv⟩⟩
  have hv : (readV s x).toNat ≤ 0xF := by omega
  have hdown : keyDown s (readV s x) = s.key[k] := keyDown_eq hk s
  constructor
  · exact exec_keySkip_of_le rfl hv (by rw [hdown])
  · exact exec_keySkip_of_le rfl hv (by rw [hdown, Bool.not_eq_true'])

/-! ## The key-wait -/

/-- A pressed key with none pressed below it is the one found. -/
theorem lowestKey?_eq_some {s : State} {k : Fin 16} (hk : s.key[k] = true) (hlow : ∀ j < k, s.key[j] = false) :
    lowestKey? s = some k := by
  rcases hfound : lowestKey? s with _ | j
  · exact absurd hk (Bool.eq_false_iff.1 (lowestKey?_none.1 hfound k))
  · obtain ⟨hj, hlow'⟩ := lowestKey?_some hfound
    rcases lt_trichotomy j k with hlt | rfl | hgt
    · exact absurd hj (Bool.eq_false_iff.1 (hlow j hlt))
    · rfl
    · exact absurd hk (Bool.eq_false_iff.1 (hlow' k hgt))

theorem exec_ldVxK_of_some {s : State} {k : Fin 16} (h : lowestKey? s = some k) (x : Reg) :
    exec (.ldVxK x) s = setReg x (BitVec.ofNat 8 k.val) s := by
  rw [exec, execLdVxK, h, setReg]

theorem exec_ldVxK_of_none {s : State} (h : lowestKey? s = none) (x : Reg) : exec (.ldVxK x) s = .next s := by
  rw [exec, execLdVxK, h]

/-- Settles O43: the wait is a register write of the key found, or nothing. -/
theorem keyWaitTakesTheLowestPressedKey : Obligations.KeyWaitTakesTheLowestPressedKey := by
  intro x s
  refine ⟨fun k hk hlow => ?_, fun hnone => exec_ldVxK_of_none (lowestKey?_none.2 hnone) x⟩
  refine exec_setReg (·.toNat = k.val) (exec_ldVxK_of_some (lowestKey?_eq_some hk hlow) x) ?_
  rw [BitVec.toNat_ofNat, Nat.mod_eq_of_lt (by omega)]

/-! ## The cycle of an instruction that raises no fault -/

/-- A cycle whose instruction leaves the fault alone ends with the tick. -/
theorem step_of_exec {s t : State} {i : Instr} (h : Executes s i) (hexec : exec i s = .next t)
    (hfault : t.fault = s.fault) : step s = .next (tick t) := by
  have ⟨hrun, _, _⟩ := h
  rw [step_executes h, hexec, endResult, endCycle, hfault, hrun, Option.isNone_none, if_pos rfl]

/-! ## The timer transfers -/

theorem onlyWrites_delay (s : State) (v : Byte) : OnlyWrites [] [.delay] s { s with DT := v } := by
  refine ⟨fun _ _ => rfl, fun p hp => ?_, fun _ => rfl⟩
  cases p with
  | delay => exact absurd List.mem_cons_self hp
  | index | slots | sp | sound | keys | display | fault | draws => rfl

theorem onlyWrites_sound (s : State) (v : Byte) : OnlyWrites [] [.sound] s { s with ST := v } := by
  refine ⟨fun _ _ => rfl, fun p hp => ?_, fun _ => rfl⟩
  cases p with
  | sound => exact absurd List.mem_cons_self hp
  | index | slots | sp | delay | keys | display | fault | draws => rfl

/-- Settles O45: the register is written before the tick, from the timer that the tick then takes down. -/
theorem readDelayLoadsTheTimer : Obligations.ReadDelayLoadsTheTimer := by
  intro x s
  refine ⟨exec_setReg (· = s.DT) rfl rfl, fun h => ⟨_, step_of_exec h rfl rfl, ?_, tickTimer_toNat s.DT⟩⟩
  rw [readV_tick, readV_advance, readV_writeV_same]

/-- The tick takes the last count off at 1, so sound outlives it from 2 on. -/
theorem soundActive_tick_iff (s : State) : soundActive (tick s) = true ↔ 1 < s.ST.toNat := by
  rw [soundActive_iff, tick_ST, Ne, ← BitVec.toNat_inj, tickTimer_toNat, show (0 : Byte).toNat = 0 from rfl]
  omega

/-- Settles O46: each is a timer write, and the tick of its cycle acts on what was written. -/
theorem timerWritesAreTickedInTheirOwnCycle : Obligations.TimerWritesAreTickedInTheirOwnCycle := by
  intro x s
  refine ⟨⟨_, rfl, rfl, rfl, ?_⟩, ⟨_, rfl, rfl, rfl, ?_⟩, fun h => ?_, fun h => ?_⟩
  · exact (onlyWrites_delay s _).advance
  · exact (onlyWrites_sound s _).advance
  · exact ⟨_, step_of_exec h rfl rfl, tickTimer_toNat (readV s x)⟩
  · exact ⟨_, step_of_exec h rfl rfl, tickTimer_toNat (readV s x), soundActive_tick_iff _⟩

end Sys2Proof.Machine

/-!
PROOFS of the family 60_exceptions: what a cycle that faults keeps (R200, R202), where a fault is raised (R201), the
tick (R210) and the stopped core (R203).
-/

namespace Sys2Proof.Machine

/-! ## A stopped core -/

theorem fault_of_loadProgram {data : List Byte} {s t : State} (h : loadProgram data s = .next t) :
    t.fault = s.fault := by
  rcases Nat.lt_or_ge 3584 data.length with hlong | hfits
  · cases (loadProgram_of_lt_length hlong s).symm.trans h
  · cases (loadProgram_of_length_le hfits s).symm.trans h
    exact storeBytes_fault s _ data

/-- Settles O9: of the four actions only the reset writes the fault of a stopped core. -/
theorem faultedCoreTakesNoStepUntilReset : Obligations.FaultedCoreTakesNoStepUntilReset := by
  intro s c hc
  refine ⟨step_stopped hc, fun keys => ?_, fun data t ht => ?_, rfl⟩
  · rw [setKeys_fault, hc]
  · rw [fault_of_loadProgram ht, hc]

/-! ## A cycle that raises a fault -/

/-- An instruction that ends in a fault on a running core has done nothing but raise it. -/
theorem exec_eq_raiseFault {i : Instr} {s t : State} {c : FaultCode} (h : exec i s = .next t) (hs : s.running)
    (hc : t.fault = some c) : t = raiseFault c s := by
  rcases exec_fault_cases h with hkept | ⟨c', rfl, -⟩
  · rw [hkept, hs] at hc; cases hc
  · rw [Option.some.inj hc]

/-- A step that ends in a fault has done nothing but raise it. -/
theorem step_eq_raiseFault {s t : State} {c : FaultCode} (h : step s = .next t) (hc : t.fault = some c) :
    t = raiseFault c s := by
  obtain ⟨hr, ⟨-, rfl⟩ | ⟨-, -, rfl⟩ | ⟨i, u, -, hu, ⟨hrun, rfl⟩ | ⟨-, rfl⟩⟩⟩ := step_cases h
  · rw [Option.some.inj hc]
  · cases hc.symm.trans hr
  · cases hc.symm.trans hrun
  · exact exec_eq_raiseFault hu hr hc

/-- Settles O10: the next state is `raiseFault` of the old one, so it has the old `PC` and the old word there. -/
theorem faultingCycleChangesOnlyTheFault : Obligations.FaultingCycleChangesOnlyTheFault := by
  intro s t c h hc
  obtain rfl := step_eq_raiseFault h hc
  exact ⟨rfl, faultOut_of_some hc⟩

/-! ## Where a fault is raised -/

/-- The fault an instruction raises on a running core, if any: R201's table, read by instruction. -/
def instrFault? : Instr → State → Option FaultCode
  | .callNnn _, s => if s.SP = 16 then some .stackOverflow else none
  | .ret, s => if s.SP = 0 then some .stackUnderflow else none
  | .drwVxVyN _ _ n, s =>
    if 0 < n.toNat ∧ 0xFFF < s.I.toNat + n.toNat - 1 then some .indexOutOfRange else none
  | .ldBVx _, s => if 0xFFF < s.I.toNat + 2 then some .indexOutOfRange else none
  | .ldMemVx x, s | .ldVxMem x, s => if 0xFFF < s.I.toNat + x.val then some .indexOutOfRange else none
  | .skpVx x, s | .sknpVx x, s => if 0xF < (readV s x).toNat then some .keyIndexOutOfRange else none
  | .ldFVx x, s => if 0xF < (readV s x).toNat then some .fontDigitOutOfRange else none
  | _, _ => none

/-- A check on a running core ends in its fault exactly where what it looks for, `p`, is the case. -/
theorem checkElse_fault {cond : Bool} {code : FaultCode} {s t u : State} {p : Prop} [Decidable p]
    (h : checkElse cond code s t = .next u) (hs : s.running) (ht : t.fault = s.fault) (hcond : cond = true ↔ ¬ p) :
    u.fault = if p then some code else none := by
  rcases checkElse_cases h with ⟨hc, rfl⟩ | ⟨hc, rfl⟩
  · rw [if_neg (hcond.1 hc), ht, hs]
  · rw [if_pos (not_not.1 fun hp => Bool.eq_false_iff.1 hc (hcond.2 hp)), raiseFault_fault]

/-- On a running core the meanings raise the faults of the table, and no others. -/
theorem exec_fault {i : Instr} {s t : State} (h : exec i s = .next t) (hs : s.running) :
    t.fault = instrFault? i s := by
  cases i with
  | cls | jpNnn | seVxNn | sneVxNn | seVxVy | sneVxVy | ldVxNn | addVxNn | ldVxVy | orVxVy | andVxVy | xorVxVy
  | addVxVy | subVxVy | shrVx | subnVxVy | shlVx | ldINnn | jpV0Nnn | rndVxNn | ldVxDt | ldDtVx | ldStVx | addIVx =>
    cases h; exact hs
  | skpVx | sknpVx | ldFVx => exact checkElse_fault h hs rfl ((inSixteen_iff _).trans Nat.not_lt.symm)
  | ldBVx => exact checkElse_fault h hs rfl ((indexInRange_iff s 2).trans Nat.not_lt.symm)
  | ldMemVx x => exact checkElse_fault h hs rfl ((indexInRange_iff s x.val).trans Nat.not_lt.symm)
  | ldVxMem x =>
    exact checkElse_fault h hs (by rw [advance_fault, loadRegs_fault])
      ((indexInRange_iff s x.val).trans Nat.not_lt.symm)
  | drwVxVyN x y n => exact checkElse_fault h hs rfl ((drawCheck_iff s n.toNat).trans (by omega))
  | ret =>
    rcases Nat.eq_zero_or_pos s.SP.val with hzero | hpos
    · have hSP : s.SP = 0 := Fin.ext hzero
      cases (exec_ret_empty (pop?_empty hSP)).symm.trans h
      rw [instrFault?, if_pos hSP, raiseFault_fault]
    · obtain ⟨a, u, hpop⟩ := pop?_of_pos hpos
      cases (exec_ret_of_pop? hpop).symm.trans h
      obtain ⟨-, -, rfl⟩ := pop?_cases hpop
      rw [instrFault?, if_neg (Fin.pos_iff_ne_zero.1 hpos)]
      exact hs
  | callNnn nnn =>
    rcases Nat.lt_or_ge s.SP.val 16 with hroom | hfull
    · obtain ⟨u, hpush⟩ := push?_of_lt hroom (s.PC + 2)
      cases (exec_callNnn_of_push? hpush nnn).symm.trans h
      obtain ⟨-, rfl⟩ := push?_cases hpush
      rw [instrFault?, if_neg (Fin.ne_of_val_ne (Nat.ne_of_lt hroom))]
      exact hs
    · have hSP : s.SP = 16 := Fin.ext (by omega)
      cases (exec_callNnn_full (push?_full hSP _) nnn).symm.trans h
      rw [instrFault?, if_pos hSP, raiseFault_fault]
  | ldVxK =>
    rcases hkey : lowestKey? s with _ | k
    · cases (exec_ldVxK_of_none hkey _).symm.trans h; exact hs
    · cases (exec_ldVxK_of_some hkey _).symm.trans h; exact hs

/-- A step ends in the fetch's fault, or in the one of the instruction it runs. -/
theorem step_fault_iff {s t : State} (h : step s = .next t) (c : FaultCode) :
    t.fault = some c ↔
      (0xFFE < s.PC.toNat ∧ c = .pcOutOfRange) ∨ ∃ i, Executes s i ∧ instrFault? i s = some c := by
  obtain ⟨hr, ⟨hp, rfl⟩ | ⟨hp, ⟨op, hd⟩, rfl⟩ | ⟨i, u, hi, hu, hend⟩⟩ := step_cases h
  · have hnone : ¬ ∃ i, Executes s i ∧ instrFault? i s = some c := fun ⟨_, ⟨_, hle, _⟩, _⟩ => by omega
    rw [raiseFault_fault, Option.some_inj, or_iff_left hnone, and_iff_right hp, eq_comm]
  · refine iff_of_false ?_ ?_
    · rw [tick_fault, advance_fault, hr]; nofun
    · rintro (⟨hlt, -⟩ | ⟨i, ⟨-, -, hi⟩, -⟩)
      · omega
      · cases hd.symm.trans hi
  · have hfault : t.fault = instrFault? i s := by
      rw [← exec_fault hu hr]
      obtain ⟨-, rfl⟩ | ⟨-, rfl⟩ := hend
      · exact tick_fault u
      · rfl
    have ⟨_, hle, _⟩ := hi
    rw [hfault, or_iff_right fun hfetch => by omega]
    exact ⟨fun hc => ⟨i, hi, hc⟩, fun ⟨j, hj, hc⟩ => executes_unique hi hj ▸ hc⟩

/-- R201's table, read by fault code and read by instruction. -/
theorem faultCause_iff (s : State) (c : FaultCode) :
    faultCause c s ↔
      (0xFFE < s.PC.toNat ∧ c = .pcOutOfRange) ∨ ∃ i, Executes s i ∧ instrFault? i s = some c := by
  constructor
  · intro h
    cases c with
    | pcOutOfRange => exact .inl ⟨h, rfl⟩
    | stackOverflow => obtain ⟨nnn, hi, hSP⟩ := h; exact .inr ⟨_, hi, if_pos hSP⟩
    | stackUnderflow => obtain ⟨hi, hSP⟩ := h; exact .inr ⟨_, hi, if_pos hSP⟩
    | indexOutOfRange =>
      obtain ⟨x, y, n, hi, hn, hI⟩ | ⟨x, hi, hI⟩ | ⟨x, hi | hi, hI⟩ := h
      · exact .inr ⟨_, hi, if_pos ⟨hn, hI⟩⟩
      all_goals exact .inr ⟨_, hi, if_pos hI⟩
    | keyIndexOutOfRange => obtain ⟨x, hi | hi, hV⟩ := h <;> exact .inr ⟨_, hi, if_pos hV⟩
    | fontDigitOutOfRange => obtain ⟨x, hi, hV⟩ := h; exact .inr ⟨_, hi, if_pos hV⟩
  · rintro (⟨hp, rfl⟩ | ⟨i, hi, hc⟩)
    · exact hp
    · cases i <;> simp only [instrFault?, Option.ite_none_right_eq_some, Option.some_inj, reduceCtorEq] at hc
      case callNnn nnn => obtain ⟨hSP, rfl⟩ := hc; exact ⟨nnn, hi, hSP⟩
      case ret => obtain ⟨hSP, rfl⟩ := hc; exact ⟨hi, hSP⟩
      case drwVxVyN x y n => obtain ⟨⟨hn, hI⟩, rfl⟩ := hc; exact .inl ⟨x, y, n, hi, hn, hI⟩
      case ldBVx x => obtain ⟨hI, rfl⟩ := hc; exact .inr (.inl ⟨x, hi, hI⟩)
      case ldMemVx x => obtain ⟨hI, rfl⟩ := hc; exact .inr (.inr ⟨x, .inl hi, hI⟩)
      case ldVxMem x => obtain ⟨hI, rfl⟩ := hc; exact .inr (.inr ⟨x, .inr hi, hI⟩)
      case skpVx x => obtain ⟨hV, rfl⟩ := hc; exact ⟨x, .inl hi, hV⟩
      case sknpVx x => obtain ⟨hV, rfl⟩ := hc; exact ⟨x, .inr hi, hV⟩
      case ldFVx x => obtain ⟨hV, rfl⟩ := hc; exact ⟨x, hi, hV⟩

/-- Settles O11: a running core takes a step, and its fault and the table's causes are the same two cases. -/
theorem faultsAreRaisedExactlyWhereListed : Obligations.FaultsAreRaisedExactlyWhereListed := by
  refine ⟨fun s c hr => ?_, rfl⟩
  rw [faultCause_iff]
  constructor
  · rintro ⟨t, ht, hc⟩
    exact (step_fault_iff ht c).1 hc
  · intro hcause
    obtain ⟨t, ht⟩ := step_next hr
    exact ⟨t, ht, (step_fault_iff ht c).2 hcause⟩

/-! ## The parts of the state an instruction does not write -/

theorem raiseFault_part_kept {p : Part} (hp : p ≠ .fault) (c : FaultCode) (s : State) :
    p.kept s (raiseFault c s) := by
  cases p with
  | fault => exact absurd rfl hp
  | index | slots | sp | delay | sound | keys | display | draws => rfl

/-- In a frame of parts the instruction may write, a part it may not write is kept. -/
theorem OnlyWrites.part_kept {i : Instr} {rs : List Reg} {ps : List Part} {s t : State} {p : Part}
    (h : OnlyWrites rs ps s t) (hps : ps.all (mayWritePart i) = true) (hw : mayWritePart i p = false) :
    p.kept s t := by
  obtain ⟨-, hparts, -⟩ := h
  exact hparts p fun hm => Bool.eq_false_iff.1 hw (List.all_eq_true.1 hps p hm)

/-- An instruction keeps each part it is not a writer of, but for raising a fault. -/
theorem exec_part_kept {i : Instr} {s t : State} {p : Part} (h : exec i s = .next t) (hw : mayWritePart i p = false)
    (hp : p ≠ .fault) : p.kept s t := by
  have hraise (c : FaultCode) : p.kept s (raiseFault c s) := raiseFault_part_kept hp c s
  cases i with
  | jpNnn | seVxNn | sneVxNn | seVxVy | sneVxVy | ldVxNn | addVxNn | ldVxVy | orVxVy | andVxVy | xorVxVy
  | addVxVy | subVxVy | shrVx | subnVxVy | shlVx | jpV0Nnn | ldVxDt =>
    cases h; cases p <;> rfl
  | cls => cases h; exact (onlyWrites_fb s _ []).advance.part_kept rfl hw
  | ldINnn => cases h; exact (onlyWrites_writeI s _ []).advance.part_kept rfl hw
  | addIVx =>
    cases h
    exact ((onlyWrites_writeI s _ [Reg.flag]).writeV List.mem_cons_self _).advance.part_kept rfl hw
  | rndVxNn =>
    cases h
    cases p with
    | draws => cases hw
    | index | slots | sp | delay | sound | keys | display | fault => rfl
  | ldDtVx => cases h; exact (onlyWrites_delay s _).advance.part_kept rfl hw
  | ldStVx => cases h; exact (onlyWrites_sound s _).advance.part_kept rfl hw
  | skpVx | sknpVx | ldBVx | ldMemVx =>
    rcases checkElse_cases h with ⟨-, rfl⟩ | ⟨-, rfl⟩
    · cases p <;> rfl
    · exact hraise _
  | ldVxMem x =>
    rcases checkElse_cases h with ⟨-, rfl⟩ | ⟨-, rfl⟩
    · exact (partsKeptBut_loadRegs s x _).advance p List.not_mem_nil
    · exact hraise _
  | drwVxVyN x y n =>
    rcases checkElse_cases h with ⟨-, rfl⟩ | ⟨-, rfl⟩
    · exact (onlyWrites_drawSprite x y _ s).advance.part_kept rfl hw
    · exact hraise _
  | ldFVx =>
    rcases checkElse_cases h with ⟨-, rfl⟩ | ⟨-, rfl⟩
    · exact (onlyWrites_writeI s _ []).advance.part_kept rfl hw
    · exact hraise _
  | ret =>
    rcases hpop : pop? s with _ | ⟨a, u⟩
    · cases (exec_ret_empty hpop).symm.trans h; exact hraise _
    · cases (exec_ret_of_pop? hpop).symm.trans h
      exact ((onlyWrites_pop? hpop).jumpTo a).part_kept rfl hw
  | callNnn nnn =>
    rcases hpush : push? s (s.PC + 2) with _ | u
    · cases (exec_callNnn_full hpush nnn).symm.trans h; exact hraise _
    · cases (exec_callNnn_of_push? hpush nnn).symm.trans h
      exact ((onlyWrites_push? hpush).jumpTo _).part_kept rfl hw
  | ldVxK x =>
    rcases hkey : lowestKey? s with _ | k
    · cases (exec_ldVxK_of_none hkey x).symm.trans h; cases p <;> rfl
    · cases (exec_ldVxK_of_some hkey x).symm.trans h; cases p <;> rfl

/-! ## The tick -/

theorem mayWritePart_delay_eq_false_iff (i : Instr) : mayWritePart i .delay = false ↔ ∀ x, i ≠ .ldDtVx x := by
  cases i
  case ldDtVx x => exact iff_of_false nofun fun h => h x rfl
  all_goals exact iff_of_true rfl nofun

theorem mayWritePart_sound_eq_false_iff (i : Instr) : mayWritePart i .sound = false ↔ ∀ x, i ≠ .ldStVx x := by
  cases i
  case ldStVx x => exact iff_of_false nofun fun h => h x rfl
  all_goals exact iff_of_true rfl nofun

/-- A step without a fault is a tick of a state that has each timer of the old one, unless the instruction run
writes that timer. -/
theorem step_eq_tick {s t : State} (h : step s = .next t) (hr : t.running) :
    ∃ u, t = tick u ∧ ((∀ x, ¬ Executes s (.ldDtVx x)) → u.DT = s.DT) ∧
      ((∀ x, ¬ Executes s (.ldStVx x)) → u.ST = s.ST) := by
  obtain ⟨-, ⟨-, rfl⟩ | ⟨-, -, rfl⟩ | ⟨i, u, hi, hu, ⟨-, rfl⟩ | ⟨hstop, rfl⟩⟩⟩ := step_cases h
  · cases hr
  · exact ⟨advance s, rfl, fun _ => rfl, fun _ => rfl⟩
  · refine ⟨u, rfl, fun hno => ?_, fun hno => ?_⟩
    · have hw : mayWritePart i .delay = false :=
        (mayWritePart_delay_eq_false_iff i).2 fun x hx => hno x (hx ▸ hi)
      exact exec_part_kept hu hw nofun
    · have hw : mayWritePart i .sound = false :=
        (mayWritePart_sound_eq_false_iff i).2 fun x hx => hno x (hx ▸ hi)
      exact exec_part_kept hu hw nofun
  · exact absurd hr hstop

/-- Settles O12: Fx15 and Fx18 write the timer that their cycle then ticks, and every other cycle without a fault ticks
the timer it began with. -/
theorem bothTimersTickOncePerCycle : Obligations.BothTimersTickOncePerCycle := by
  intro s t h hr
  obtain ⟨u, htick, hDT, hST⟩ := step_eq_tick h hr
  refine ⟨fun x hi => ?_, fun hno => ?_, fun x hi => ?_, fun hno => ?_⟩
  · cases (step_of_exec hi rfl rfl).symm.trans h
    exact tickTimer_toNat (readV s x)
  · rw [htick, tick_DT, tickTimer_toNat, hDT hno]
  · cases (step_of_exec hi rfl rfl).symm.trans h
    exact tickTimer_toNat (readV s x)
  · rw [htick, tick_ST, tickTimer_toNat, hST hno]

end Sys2Proof.Machine

/-!
PROOFS of the family 70_reset_and_hazards: what reset leaves in each piece of state (R230).
-/

namespace Sys2Proof.Machine

/-! ## Memory that lists no address -/

/-- The font fills memory from address 0 (`FONT_BASE`) up, in its own order. -/
theorem Memory.readBytes_nil_font : Memory.readBytes [] 0x000 80 = Config.font := by
  apply List.ext_getElem
  · rw [Memory.readBytes_length]; rfl
  · intro k hk hfont
    rw [Memory.readBytes_getElem, Memory.read_nil, resetByte, Nat.zero_add, List.getD_eq_getElem _ _ hfont]

theorem resetByte_of_font_le {a : Nat} (h : 0x050 ≤ a) : resetByte a = 0 :=
  List.getD_eq_default _ _ h

/-! ## The reset state, piece by piece -/

theorem readV_reset (x : Reg) : readV State.reset x = 0 := Vector.getElem_replicate _

theorem stack_reset (k : Fin 16) : State.reset.stack[k] = 0 := Vector.getElem_replicate _

theorem key_reset (k : Fin 16) : State.reset.key[k] = false := Vector.getElem_replicate _

theorem pixel_reset (y : Fin 32) (x : Fin 64) : State.reset.fb.pixel y x = false := by
  have hrow : State.reset.fb[y] = Vector.replicate 64 false := Vector.getElem_replicate _
  rw [FrameBuffer.pixel, hrow]
  exact Vector.getElem_replicate _

/-- By construction or by the port, the state is the reset state but for the count of draws. -/
theorem eq_reset_with_draws {s r : State} (h : r = State.reset ∨ r = resetPort s) :
    ∃ n, r = { State.reset with draws := n } := by
  rcases h with rfl | rfl
  · exact ⟨0, rfl⟩
  · exact ⟨s.draws, rfl⟩

/-- Settles O48: memory after reset lists no address, so each reads as its reset contents; the other pieces are read off
the reset state, which the port differs from in the count of draws alone. -/
theorem resetGivesEveryPieceItsValue : Obligations.ResetGivesEveryPieceItsValue := by
  intro s r h
  obtain ⟨n, rfl⟩ := eq_reset_with_draws h
  exact ⟨Memory.readBytes_nil_font, fun _ ha => resetByte_of_font_le ha, readV_reset, rfl, rfl, stack_reset, rfl, rfl,
    rfl, key_reset, pixel_reset, rfl⟩

end Sys2Proof.Machine

/-!
PROOFS of the family other, encoding: the decoder and the encoder undo each other (R62 to R66, R71), and the map's words
(R65).
-/

namespace Sys2Proof

/-! ## Decoding a word that was built -/

/-- In each family the fields of the built word are the ones it was built from, and its sub-opcode selects the row. -/
theorem decode_encode (i : Instr) : decode (encode i) = .instr i := by
  cases i with
  | cls | ret => rfl
  | jpNnn => simp [encode, decode_family1]
  | callNnn => simp [encode, decode_family2]
  | seVxNn => simp [encode, decode_family3]
  | sneVxNn => simp [encode, decode_family4]
  | seVxVy => simp [encode, decode_family5, decodeN0]
  | ldVxNn => simp [encode, decode_family6]
  | addVxNn => simp [encode, decode_family7]
  | ldVxVy | orVxVy | andVxVy | xorVxVy | addVxVy | subVxVy | shrVx | subnVxVy | shlVx =>
    simp [encode, decode_family8, decode8]
  | sneVxVy => simp [encode, decode_family9, decodeN0]
  | ldINnn => simp [encode, decode_familyA]
  | jpV0Nnn => simp [encode, decode_familyB]
  | rndVxNn => simp [encode, decode_familyC]
  | drwVxVyN => simp [encode, decode_familyD]
  | skpVx | sknpVx => simp [encode, decode_familyE, decodeE]
  | ldVxDt | ldVxK | ldDtVx | ldStVx | addIVx | ldFVx | ldBVx | ldMemVx | ldVxMem =>
    simp [encode, decode_familyF, decodeF]

/-- Settles O1: the two bytes of a word, joined as fetch joins them, are the word again. -/
theorem decodeOfEncodeIsTheInstruction : Obligations.DecodeOfEncodeIsTheInstruction := by
  intro i
  refine ⟨decode_encode i, ?_⟩
  rw [decodeBytes, wordOfBytes_split, decode_encode]

/-! ## Building the word of a decoded instruction -/

theorem formNnn_of_fields {op : Word} {f : Nibble} (hf : fieldF op = f) : formNnn f (fieldNnn op) = op := by
  rw [← hf, formNnn_fields]

theorem formXnn_of_fields {op : Word} {f : Nibble} {nn : Byte} (hf : fieldF op = f) (hnn : fieldNn op = nn) :
    formXnn f (fieldX op) nn = op := by
  rw [← hf, ← hnn, formXnn_fields]

theorem formXyn_of_fields {op : Word} {f n : Nibble} (hf : fieldF op = f) (hn : fieldN op = n) :
    formXyn f (fieldX op) (fieldY op) n = op := by
  rw [← hf, ← hn, formXyn_fields]

/-- In each family the format takes all sixteen bits of the word: fields, the ignored `y` among them, and sub-opcode. -/
theorem encode_of_decode {op : Word} {i : Instr} (h : decode op = .instr i) : encode i = op := by
  rcases nibble_cases (fieldF op) with e | e | e | e | e | e | e | e | e | e | e | e | e | e | e | e
  · rw [decode_family0 _ e, decode0] at h
    split_ifs at h with hcls hret <;> cases h
    · exact hcls.symm
    · exact hret.symm
  · rw [decode_family1 _ e] at h; cases h; exact formNnn_of_fields e
  · rw [decode_family2 _ e] at h; cases h; exact formNnn_of_fields e
  · rw [decode_family3 _ e] at h; cases h; exact formXnn_of_fields e rfl
  · rw [decode_family4 _ e] at h; cases h; exact formXnn_of_fields e rfl
  · rw [decode_family5 _ e, decodeN0] at h
    split_ifs at h with hn
    cases h; exact formXyn_of_fields e hn
  · rw [decode_family6 _ e] at h; cases h; exact formXnn_of_fields e rfl
  · rw [decode_family7 _ e] at h; cases h; exact formXnn_of_fields e rfl
  · rw [decode_family8 _ e, decode8] at h
    split at h <;> cases h
    all_goals rename_i hn; exact formXyn_of_fields e hn
  · rw [decode_family9 _ e, decodeN0] at h
    split_ifs at h with hn
    cases h; exact formXyn_of_fields e hn
  · rw [decode_familyA _ e] at h; cases h; exact formNnn_of_fields e
  · rw [decode_familyB _ e] at h; cases h; exact formNnn_of_fields e
  · rw [decode_familyC _ e] at h; cases h; exact formXnn_of_fields e rfl
  · rw [decode_familyD _ e] at h; cases h; exact formXyn_of_fields e rfl
  · rw [decode_familyE _ e, decodeE] at h
    split at h <;> cases h
    all_goals rename_i hnn; exact formXnn_of_fields e hnn
  · rw [decode_familyF _ e, decodeF] at h
    split at h <;> cases h
    all_goals rename_i hnn; exact formXnn_of_fields e hnn

/-- Settles O2. -/
theorem encodeOfDecodeIsTheWord : Obligations.EncodeOfDecodeIsTheWord := fun _ _ => encode_of_decode

/-- Settles O5: 29 closed words, decoded. -/
theorem wordsDecodeAsTheMapSays : Obligations.WordsDecodeAsTheMapSays := by
  unfold Obligations.WordsDecodeAsTheMapSays
  decide

end Sys2Proof

/-!
PROOFS of the family other, the machine: what an instruction writes and where it goes (R11, R13, R42), the invariant,
and the inputs that no instruction reads (R20, R21).
-/

namespace Sys2Proof.Machine

/-! ## Canonical memory -/

theorem Memory.read_of_notMem {m : Memory} {a : Nat} (h : ∀ c ∈ m, c.1 ≠ a) : m.read a = resetByte a := by
  induction m with
  | nil => rfl
  | cons c m ih =>
    rw [Memory.read_cons, if_neg (h c List.mem_cons_self), ih fun d hd => h d (List.mem_cons_of_mem c hd)]

/-- With the addresses rising, the first entry of an address is its only one. -/
theorem Memory.read_of_mem {m : Memory} (h : m.Pairwise fun c d => c.1 < d.1) {c : Host.Cell} (hc : c ∈ m) :
    m.read c.1 = c.2 := by
  induction m with
  | nil => cases hc
  | cons d m ih =>
    obtain ⟨hd, hm⟩ := List.pairwise_cons.1 h
    rcases List.mem_cons.1 hc with rfl | hc
    · rw [Memory.read_cons, if_pos rfl]
    · rw [Memory.read_cons, if_neg (hd c hc).ne, ih hm hc]

/-- A canonical memory lists exactly the addresses that read otherwise than after reset, each with what it reads as. -/
theorem Memory.mem_iff_read {m : Memory} (h : m.wf) (c : Host.Cell) :
    c ∈ m ↔ m.read c.1 = c.2 ∧ c.2 ≠ resetByte c.1 := by
  obtain ⟨hrising, hentries⟩ := h
  constructor
  · intro hc
    obtain ⟨-, hne⟩ := hentries c hc
    exact ⟨Memory.read_of_mem hrising hc, hne⟩
  · rintro ⟨hread, hne⟩
    obtain ⟨d, hd, haddr⟩ : ∃ d ∈ m, d.1 = c.1 := by
      by_contra hnone
      rw [Memory.read_of_notMem fun d hd e => hnone ⟨d, hd, e⟩] at hread
      exact hne hread.symm
    have hvalue : d.2 = c.2 := by rw [← Memory.read_of_mem hrising hd, haddr, hread]
    rwa [← Prod.ext haddr hvalue]

/-- Settles O36: the reads fix the entries, and the rising addresses fix their order. -/
theorem canonicalMemoryIsItsBytes : Obligations.CanonicalMemoryIsItsBytes := by
  intro m m' hm hm' hread
  have hmem (c : Host.Cell) : c ∈ m ↔ c ∈ m' := by rw [Memory.mem_iff_read hm, Memory.mem_iff_read hm', hread]
  have hnodup {l : Memory} (h : l.wf) : l.Nodup := h.1.imp fun hlt e => hlt.ne (congrArg Prod.fst e)
  exact ((List.perm_ext_iff_of_nodup (hnodup hm) (hnodup hm')).2 hmem).eq_of_pairwise
    (fun _ _ _ _ hlt hgt => absurd hlt hgt.asymm) hm.1 hm'.1

/-! ## Every core that is not stopped takes a step -/

/-- Settles O13: a fault is either the one the state had or the instruction's only effect. -/
theorem everyRunningCoreTakesAStep : Obligations.EveryRunningCoreTakesAStep := by
  refine ⟨fun s hs => step_next hs, fun i s => ?_⟩
  obtain ⟨t, ht⟩ := exec_next i s
  refine ⟨t, ht, fun c hc => ?_⟩
  rcases exec_fault_cases ht with hkept | ⟨c', rfl, -⟩
  · exact .inl (hkept ▸ hc)
  · exact .inr (by rw [Option.some.inj hc])

/-! ## The cycle of an instruction -/

theorem endCycle_of_running {s : State} (h : s.running) : endCycle s = tick s :=
  if_pos (Option.isNone_iff_eq_none.2 h)

theorem endCycle_of_stopped {s : State} (h : ¬ s.running) : endCycle s = s :=
  if_neg (mt Option.isNone_iff_eq_none.1 h)

/-- Settles O6: the tick takes each timer down by one, saturating at 0. -/
theorem stepRunsTheFetchedInstruction : Obligations.StepRunsTheFetchedInstruction := by
  intro s t i hs hp hd ht
  have hi : Executes s i := ⟨hs, hp, hd⟩
  rw [step_executes hi, ht, endResult]
  by_cases hrun : t.fault = none
  · rw [if_pos hrun, endCycle_of_running hrun]
    rfl
  · rw [if_neg hrun, endCycle_of_stopped hrun]

/-! ## A call and its return -/

/-- A pop looks at the stack alone, so a jump before it changes nothing but `PC`. -/
theorem pop?_jumpTo {s t : State} {a : Word} (h : pop? s = some (a, t)) (b : Word) :
    pop? (jumpTo s b) = some (a, jumpTo t b) := by
  obtain ⟨hpos, rfl, rfl⟩ := pop?_cases h
  exact dif_pos hpos

/-- A pop takes back what a push has put on the stack, and leaves it in its slot (D20). -/
theorem pop?_of_push? {s t : State} {a : Word} (h : push? s a = some t) :
    pop? t = some (a, { s with stack := t.stack }) := by
  obtain ⟨hroom, rfl⟩ := push?_cases h
  simp [pop?]

theorem onlyWrites_slots (s : State) (slots : Vector Word 16) : OnlyWrites [] [.slots] s { s with stack := slots } := by
  refine ⟨fun _ _ => rfl, fun p hp => ?_, fun _ => rfl⟩
  cases p with
  | slots => exact absurd List.mem_cons_self hp
  | index | sp | delay | sound | keys | display | fault | draws => rfl

/-- Settles O17. -/
theorem callThenReturnComesBack : Obligations.CallThenReturnComesBack := by
  intro nnn s hroom
  obtain ⟨t, hpush⟩ := push?_of_lt hroom (s.PC + 2)
  have hpop := pop?_jumpTo (pop?_of_push? hpush) (targetAddr nnn)
  exact ⟨_, _, exec_callNnn_of_push? hpush nnn, exec_ret_of_pop? hpop, rfl,
    ((onlyWrites_slots s _).jumpTo _).jumpTo _⟩

/-! ## The three instructions that look before they write, by what they find -/

/-- RET: an empty stack, or the topmost slot's value in `PC` and `SP` one down. -/
theorem exec_ret_cases {s t : State} (h : exec .ret s = .next t) :
    (s.SP = 0 ∧ t = raiseFault .stackUnderflow s) ∨
    ∃ hpos : 0 < s.SP.val,
      t = jumpTo { s with SP := ⟨s.SP.val - 1, by omega⟩ } (s.stack[s.SP.val - 1]'(by omega)) := by
  rcases Nat.eq_zero_or_pos s.SP.val with hzero | hpos
  · have hSP : s.SP = 0 := Fin.ext hzero
    cases (exec_ret_empty (pop?_empty hSP)).symm.trans h
    exact .inl ⟨hSP, rfl⟩
  · cases (exec_ret_of_pop? (dif_pos hpos)).symm.trans h
    exact .inr ⟨hpos, rfl⟩

/-- CALL: a full stack, or the next address pushed and the target in `PC`. -/
theorem exec_callNnn_cases {nnn : Imm12} {s t : State} (h : exec (.callNnn nnn) s = .next t) :
    (s.SP = 16 ∧ t = raiseFault .stackOverflow s) ∨
    ∃ hroom : s.SP.val < 16,
      t = jumpTo { s with stack := s.stack.set s.SP.val (s.PC + 2), SP := ⟨s.SP.val + 1, by omega⟩ }
        (targetAddr nnn) := by
  rcases Nat.lt_or_ge s.SP.val 16 with hroom | hfull
  · cases (exec_callNnn_of_push? (dif_pos hroom) nnn).symm.trans h
    exact .inr ⟨hroom, rfl⟩
  · have hSP : s.SP = 16 := Fin.ext (by omega)
    cases (exec_callNnn_full (push?_full hSP _) nnn).symm.trans h
    exact .inl ⟨hSP, rfl⟩

/-- The key-wait: no key and nothing written, or the lowest key in `Vx`. -/
theorem exec_ldVxK_cases {x : Reg} {s t : State} (h : exec (.ldVxK x) s = .next t) :
    (lowestKey? s = none ∧ t = s) ∨
    ∃ k : Fin 16, lowestKey? s = some k ∧ t = advance (writeV s x (BitVec.ofNat 8 k.val)) := by
  rcases hkey : lowestKey? s with _ | k
  · cases (exec_ldVxK_of_none hkey x).symm.trans h
    exact .inl ⟨rfl, rfl⟩
  · cases (exec_ldVxK_of_some hkey x).symm.trans h
    exact .inr ⟨k, rfl, rfl⟩

/-! ## The registers an instruction does not write -/

/-- An instruction whose meaning is `V[x] <- r`. -/
theorem setReg_reg_kept {x r : Reg} {v : Byte} {s t : State} (h : setReg x v s = .next t) (hr : (r == x) = false) :
    readV t r = readV s r := by
  cases h
  exact readV_writeV_other (beq_eq_false_iff_ne.1 hr) s v

/-- An instruction whose meaning is `V[x] <- r ; VF <- f`. -/
theorem setRegFlag_reg_kept {x r : Reg} {v : Byte} {f : Bool} {s t : State} (h : setRegFlag x v f s = .next t)
    (hr : (r == x || r == Reg.flag) = false) : readV t r = readV s r := by
  cases h
  obtain ⟨hx, hf⟩ := Bool.or_eq_false_iff.1 hr
  exact readV_writeVThenFlag_other (beq_eq_false_iff_ne.1 hx) (beq_eq_false_iff_ne.1 hf) s v f

/-- An instruction keeps each register it is not a writer of. -/
theorem exec_reg_kept {i : Instr} {r : Reg} {s t : State} (h : exec i s = .next t) (hw : mayWriteReg i r = false) :
    readV t r = readV s r := by
  cases i with
  | cls | jpNnn | seVxNn | sneVxNn | seVxVy | sneVxVy | ldINnn | jpV0Nnn | ldDtVx | ldStVx => cases h; rfl
  | ldVxNn | addVxNn | ldVxVy | orVxVy | andVxVy | xorVxVy | ldVxDt => exact setReg_reg_kept h hw
  | rndVxNn => exact setReg_reg_kept (s := nextDraw s) h hw
  | addVxVy | subVxVy | shrVx | subnVxVy | shlVx => exact setRegFlag_reg_kept h hw
  | addIVx => cases h; exact readV_writeV_other (beq_eq_false_iff_ne.1 hw) _ _
  | drwVxVyN x y n =>
    rcases checkElse_cases h with ⟨-, rfl⟩ | ⟨-, rfl⟩
    · exact readV_writeV_other (beq_eq_false_iff_ne.1 hw) _ _
    · rfl
  | skpVx | sknpVx | ldFVx | ldBVx | ldMemVx => rcases checkElse_cases h with ⟨-, rfl⟩ | ⟨-, rfl⟩ <;> rfl
  | ldVxMem x =>
    rcases checkElse_cases h with ⟨-, rfl⟩ | ⟨-, rfl⟩
    · rw [readV_advance, readV_loadRegs, if_neg (of_decide_eq_false hw)]
    · rfl
  | ret => obtain ⟨-, rfl⟩ | ⟨-, rfl⟩ := exec_ret_cases h <;> rfl
  | callNnn => obtain ⟨-, rfl⟩ | ⟨-, rfl⟩ := exec_callNnn_cases h <;> rfl
  | ldVxK =>
    obtain ⟨-, rfl⟩ | ⟨k, -, rfl⟩ := exec_ldVxK_cases h
    · rfl
    · exact setReg_reg_kept rfl hw

theorem flagByte_zero_or_one (b : Bool) : flagByte b = 0 ∨ flagByte b = 1 := by
  cases b
  · exact .inl rfl
  · exact .inr rfl

/-- Settles O28: the flag-defining instructions write VF last, and what they write is a flag. -/
theorem registersHaveOnlyTheListedWriters : Obligations.RegistersHaveOnlyTheListedWriters := by
  refine ⟨fun i r s t => exec_reg_kept, fun i s t h hs ht hi => ?_⟩
  suffices hflag : ∃ f, readV t Reg.flag = flagByte f by
    obtain ⟨f, hf⟩ := hflag
    rw [hf]
    exact flagByte_zero_or_one f
  obtain ⟨x, y, rfl | rfl | rfl | rfl | rfl | rfl | ⟨n, rfl⟩⟩ := hi
  case inr.inr.inr.inr.inr.inr =>
    rcases checkElse_cases h with ⟨-, rfl⟩ | ⟨-, rfl⟩
    · exact ⟨_, readV_writeV_same _ _ _⟩
    · cases ht
  all_goals cases h; exact ⟨_, readV_writeV_same _ _ _⟩

/-! ## The memory an instruction does not write -/

/-- An instruction that does not store leaves memory as it was. -/
theorem exec_mem_kept {i : Instr} {s t : State} (h : exec i s = .next t) (hw : mayStore i = false) : t.mem = s.mem := by
  cases i with
  | cls | jpNnn | seVxNn | sneVxNn | seVxVy | sneVxVy | ldVxNn | addVxNn | ldVxVy | orVxVy | andVxVy | xorVxVy
  | addVxVy | subVxVy | shrVx | subnVxVy | shlVx | ldINnn | jpV0Nnn | rndVxNn | ldVxDt | ldDtVx | ldStVx | addIVx =>
    cases h; rfl
  | drwVxVyN | skpVx | sknpVx | ldFVx => rcases checkElse_cases h with ⟨-, rfl⟩ | ⟨-, rfl⟩ <;> rfl
  | ldVxMem x =>
    rcases checkElse_cases h with ⟨-, rfl⟩ | ⟨-, rfl⟩
    · rw [advance_mem, loadRegs_mem]
    · rfl
  | ldBVx | ldMemVx => cases hw
  | ret => obtain ⟨-, rfl⟩ | ⟨-, rfl⟩ := exec_ret_cases h <;> rfl
  | callNnn => obtain ⟨-, rfl⟩ | ⟨-, rfl⟩ := exec_callNnn_cases h <;> rfl
  | ldVxK => obtain ⟨-, rfl⟩ | ⟨-, -, rfl⟩ := exec_ldVxK_cases h <;> rfl

/-- The cycle of an instruction: the tick after its meaning, unless that raised a fault. -/
theorem step_executes_cases {i : Instr} {s t : State} (hi : Executes s i) (h : step s = .next t) :
    ∃ u, exec i s = .next u ∧ ((u.running ∧ t = tick u) ∨ (¬ u.running ∧ t = u)) := by
  have ⟨_, hin, hd⟩ := hi
  obtain ⟨-, ⟨hout, -⟩ | ⟨-, ⟨op, hunknown⟩, -⟩ | ⟨j, u, hj, hu, hend⟩⟩ := step_cases h
  · omega
  · cases hunknown.symm.trans hd
  · cases executes_unique hi hj
    exact ⟨u, hu, hend⟩

/-- The tick keeps all parts but the timers. -/
theorem tick_part_kept {p : Part} {s t : State} (hdelay : p ≠ .delay) (hsound : p ≠ .sound) (h : p.kept s t) :
    p.kept s (tick t) := by
  cases p with
  | delay => exact absurd rfl hdelay
  | sound => exact absurd rfl hsound
  | index | slots | sp | keys | display | fault | draws => exact h

/-- Settles O38: what the instruction keeps, the tick keeps too, but for the timers, which it takes down. -/
theorem eachPartHasOnlyItsListedWriters : Obligations.EachPartHasOnlyItsListedWriters := by
  intro s t i hi h
  obtain ⟨u, hu, hend⟩ := step_executes_cases hi h
  refine ⟨fun p hw hdelay hsound hfault => ?_, fun hw a => ?_, fun hw => ?_, fun hw => ?_⟩
  · have hkept := exec_part_kept hu hw hfault
    obtain ⟨-, rfl⟩ | ⟨-, rfl⟩ := hend
    · exact tick_part_kept hdelay hsound hkept
    · exact hkept
  · have hkept := exec_mem_kept hu hw
    obtain ⟨-, rfl⟩ | ⟨-, rfl⟩ := hend
    · rw [tick_mem, hkept]
    · rw [hkept]
  · have hkept : u.DT = s.DT := exec_part_kept hu hw nofun
    obtain ⟨-, rfl⟩ | ⟨hstop, rfl⟩ := hend
    · exact .inl (by rw [tick_DT, tickTimer_toNat, hkept])
    · exact .inr hstop
  · have hkept : u.ST = s.ST := exec_part_kept hu hw nofun
    obtain ⟨-, rfl⟩ | ⟨hstop, rfl⟩ := hend
    · exact .inl (by rw [tick_ST, tickTimer_toNat, hkept])
    · exact .inr hstop

/-! ## Where an instruction leaves `PC` -/

/-- An instruction that raises no fault goes on, skips, waits where it is, or transfers; each instruction does one of
these (R13, R88, R90, R174). -/
theorem exec_PC_cases {i : Instr} {s t : State} (h : exec i s = .next t) :
    (∃ c, t = raiseFault c s) ∨ (t.PC = s.PC + 2 ∧ isTransfer i = false) ∨ (t.PC = s.PC + 4 ∧ isSkip i = true) ∨
      (t.PC = s.PC ∧ (∃ x, i = .ldVxK x) ∧ ∀ k : Fin 16, s.key[k] = false) ∨ isTransfer i = true := by
  have hskip (c : Bool) : (skipIf c s).PC = s.PC + 2 ∨ (skipIf c s).PC = s.PC + 4 := by
    cases c
    · exact .inl rfl
    · exact .inr rfl
  cases i with
  | cls | ldVxNn | addVxNn | ldVxVy | orVxVy | andVxVy | xorVxVy | addVxVy | subVxVy | shrVx | subnVxVy | shlVx | ldINnn
  | rndVxNn | ldVxDt | ldDtVx | ldStVx | addIVx => cases h; exact .inr (.inl ⟨rfl, rfl⟩)
  | ret | jpNnn | callNnn | jpV0Nnn => exact .inr (.inr (.inr (.inr rfl)))
  | seVxNn | sneVxNn | seVxVy | sneVxVy =>
    cases h
    exact .inr ((hskip _).imp (⟨·, rfl⟩) fun hPC => .inl ⟨hPC, rfl⟩)
  | skpVx | sknpVx =>
    rcases checkElse_cases h with ⟨-, rfl⟩ | ⟨-, rfl⟩
    · exact .inr ((hskip _).imp (⟨·, rfl⟩) fun hPC => .inl ⟨hPC, rfl⟩)
    · exact .inl ⟨_, rfl⟩
  | drwVxVyN | ldFVx | ldBVx | ldMemVx =>
    rcases checkElse_cases h with ⟨-, rfl⟩ | ⟨-, rfl⟩
    · exact .inr (.inl ⟨rfl, rfl⟩)
    · exact .inl ⟨_, rfl⟩
  | ldVxMem =>
    rcases checkElse_cases h with ⟨-, rfl⟩ | ⟨-, rfl⟩
    · exact .inr (.inl ⟨by rw [advance_PC, loadRegs_PC], rfl⟩)
    · exact .inl ⟨_, rfl⟩
  | ldVxK x =>
    obtain ⟨hkey, rfl⟩ | ⟨k, -, rfl⟩ := exec_ldVxK_cases h
    · exact .inr (.inr (.inr (.inl ⟨rfl, ⟨x, rfl⟩, lowestKey?_none.1 hkey⟩)))
    · exact .inr (.inl ⟨rfl, rfl⟩)

/-- Settles O21: an unknown word is passed over, and an instruction goes where `exec_PC_cases` says; the tick leaves
`PC`. -/
theorem pcGoesOnlyWhereTheInstructionSays : Obligations.PCGoesOnlyWhereTheInstructionSays := by
  intro s t h ht
  obtain ⟨-, ⟨-, rfl⟩ | ⟨-, ⟨op, hd⟩, rfl⟩ | ⟨i, u, hi, hu, ⟨hrun, rfl⟩ | ⟨hstop, rfl⟩⟩⟩ := step_cases h
  · cases ht
  · exact .inl ⟨rfl, fun i ⟨_, _, hi⟩ => by cases hd.symm.trans hi⟩
  · obtain ⟨c, rfl⟩ | ⟨hPC, hi'⟩ | ⟨hPC, hi'⟩ | ⟨hPC, ⟨x, rfl⟩, hkeys⟩ | hi' := exec_PC_cases hu
    · cases hrun
    · exact .inl ⟨hPC, fun j hj => executes_unique hi hj ▸ hi'⟩
    · exact .inr (.inl ⟨hPC, i, hi, hi'⟩)
    · exact .inr (.inr (.inl ⟨hPC, ⟨x, hi⟩, hkeys⟩))
    · exact .inr (.inr (.inr ⟨i, hi, hi'⟩))
  · exact absurd ht hstop

/-! ## The invariant: what one instruction keeps of it -/

/-- A transfer's target is an immediate, masked to 12 bits, or a stack slot. -/
theorem exec_transfer_PC_le {i : Instr} {s t : State} (h : exec i s = .next t) (hi : isTransfer i = true)
    (hstack : ∀ k : Fin 16, (s.stack[k]).toNat ≤ 0x1000) (ht : t.running) : t.PC.toNat ≤ 0x1000 := by
  cases i with
  | jpNnn nnn =>
    cases h
    rw [jumpTo_PC, targetAddr_toNat]
    omega
  | jpV0Nnn nnn =>
    cases h
    rw [jumpTo_PC, offsetTarget_toNat]
    omega
  | callNnn nnn =>
    obtain ⟨-, rfl⟩ | ⟨-, rfl⟩ := exec_callNnn_cases h
    · cases ht
    · rw [jumpTo_PC, targetAddr_toNat]
      omega
  | ret =>
    obtain ⟨-, rfl⟩ | ⟨hpos, rfl⟩ := exec_ret_cases h
    · cases ht
    · exact hstack ⟨s.SP.val - 1, by omega⟩
  | _ => cases hi

/-- A word sum wraps, so it is at most the sum of the numbers. -/
theorem add_toNat_le {a : Word} {n : Nat} (h : a.toNat ≤ n) (b : Word) : (a + b).toNat ≤ n + b.toNat := by
  rw [BitVec.toNat_add]
  exact (Nat.mod_le _ _).trans (Nat.add_le_add_right h _)

/-- From inside the fetch's range no instruction takes `PC` further than a skip does. -/
theorem exec_PC_le {i : Instr} {s t : State} (h : exec i s = .next t) (hPC : s.PC.toNat ≤ 0xFFE)
    (hstack : ∀ k : Fin 16, (s.stack[k]).toNat ≤ 0x1000) (ht : t.running) : t.PC.toNat ≤ 0x1002 := by
  obtain ⟨c, rfl⟩ | ⟨hgo, -⟩ | ⟨hskip, -⟩ | ⟨hwait, -⟩ | hi := exec_PC_cases h
  · cases ht
  · rw [hgo]; exact (add_toNat_le hPC 2).trans (by decide)
  · rw [hskip]; exact add_toNat_le hPC 4
  · rw [hwait]; omega
  · exact (exec_transfer_PC_le h hi hstack ht).trans (by decide)

/-- The only address pushed is the one after a call. -/
theorem exec_stack_le {i : Instr} {s t : State} (h : exec i s = .next t) (hPC : s.PC.toNat ≤ 0xFFE)
    (hstack : ∀ k : Fin 16, (s.stack[k]).toNat ≤ 0x1000) (k : Fin 16) : (t.stack[k]).toNat ≤ 0x1000 := by
  rcases hw : mayWritePart i .slots
  · have hkept : t.stack = s.stack := exec_part_kept h hw nofun
    rw [hkept]
    exact hstack k
  · cases i with
    | callNnn nnn =>
      obtain ⟨-, rfl⟩ | ⟨hroom, rfl⟩ := exec_callNnn_cases h
      · exact hstack k
      · rw [jumpTo_stack, Fin.getElem_fin, Vector.getElem_set]
        split_ifs
        · exact add_toNat_le hPC 2
        · exact hstack k
    | _ => cases hw

/-- A store checks its highest address first. -/
theorem exec_mem_wf {i : Instr} {s t : State} (h : exec i s = .next t) (hmem : s.mem.wf) : t.mem.wf := by
  rcases hw : mayStore i
  · rw [exec_mem_kept h hw]
    exact hmem
  · cases i with
    | ldBVx x =>
      rcases checkElse_cases h with ⟨hin, rfl⟩ | ⟨-, rfl⟩
      · have := (indexInRange_iff s 2).1 hin
        exact Memory.writeBytes_wf hmem (by rw [bcdDigits_length]; omega)
      · exact hmem
    | ldMemVx x =>
      rcases checkElse_cases h with ⟨hin, rfl⟩ | ⟨-, rfl⟩
      · have := (indexInRange_iff s x.val).1 hin
        exact Memory.writeBytes_wf hmem (by rw [regsUpTo_length]; omega)
      · exact hmem
    | _ => cases hw

/-! ## The invariant of every state a run reaches -/

/-- Without a fault the invariant's last clause says nothing. -/
theorem State.Inv.of_running {s : State} (hmem : s.mem.wf) (hPC : s.PC.toNat ≤ 0x1002)
    (hstack : ∀ k : Fin 16, (s.stack[k]).toNat ≤ 0x1000) (hs : s.running) : s.Inv :=
  ⟨hmem, hPC, hstack, fun _ hc => by rw [hs] at hc; cases hc⟩

/-- A fault raised in the state keeps the invariant where it is the fetch's exactly if `PC` is out of range. -/
theorem State.Inv.raiseFault {s : State} {c : FaultCode} (h : s.Inv) (hc : c = .pcOutOfRange ↔ 0xFFE < s.PC.toNat) :
    (raiseFault c s).Inv := by
  obtain ⟨hmem, hPC, hstack, -⟩ := h
  exact ⟨hmem, hPC, hstack, fun c' hc' => Option.some.inj hc' ▸ hc⟩

/-- In the fetch's range an instruction keeps each clause, or raises a fault of its own and does nothing else. -/
theorem exec_inv {i : Instr} {s t : State} (h : s.Inv) (hs : s.running) (hin : s.PC.toNat ≤ 0xFFE)
    (hexec : exec i s = .next t) : t.Inv := by
  have ⟨hmem, _, hstack, _⟩ := h
  rcases exec_fault_cases hexec with hkept | ⟨c, rfl, hc⟩
  · have ht : t.running := hkept.trans hs
    exact .of_running (exec_mem_wf hexec hmem) (exec_PC_le hexec hin hstack ht) (exec_stack_le hexec hin hstack) ht
  · exact h.raiseFault (iff_of_false hc (Nat.not_lt.2 hin))

/-- Settles O53: the fetch's fault is raised out of its range alone, and the tick changes nothing the invariant speaks
of. -/
theorem everyStepKeepsTheInvariant : Obligations.EveryStepKeepsTheInvariant := by
  intro s t h hstep
  have ⟨hmem, _, hstack, _⟩ := h
  obtain ⟨hs, ⟨hout, rfl⟩ | ⟨hin, -, rfl⟩ | ⟨i, u, ⟨-, hin, -⟩, hu, ⟨-, rfl⟩ | ⟨-, rfl⟩⟩⟩ := step_cases hstep
  · exact h.raiseFault (iff_of_true rfl hout)
  · exact .of_running hmem ((add_toNat_le hin 2).trans (by decide)) hstack hs
  · exact exec_inv (t := u) h hs hin hu
  · exact exec_inv h hs hin hu

/-- Settles O52: no byte differs from reset's, `PC` is 0x200, every slot is 0 and no fault is set. -/
theorem resetMeetsTheInvariant : Obligations.ResetMeetsTheInvariant := by
  refine State.Inv.of_running ⟨.nil, nofun⟩ (by decide) (fun k => ?_) rfl
  rw [stack_reset]
  decide

/-- Settles O58: a key write changes no part the invariant speaks of, a load that is not refused ends inside memory, and
the reset port's state is the reset state but for the count of draws. -/
theorem everyActionKeepsTheInvariant : Obligations.EveryActionKeepsTheInvariant := by
  intro s t a h hact
  cases a with
  | cycle => exact everyStepKeepsTheInvariant s t h hact
  | keys keys => cases hact; exact h
  | load data =>
    obtain ⟨hmem, hrest⟩ := h
    rcases Nat.lt_or_ge 3584 data.length with hlong | hfits
    · cases (loadProgram_of_lt_length hlong s).symm.trans hact
    · cases (loadProgram_of_length_le hfits s).symm.trans hact
      exact ⟨Memory.writeBytes_wf hmem (by omega), hrest⟩
  | reset => cases hact; exact resetMeetsTheInvariant

theorem Reachable.inv {s : State} (h : Reachable s) : s.Inv := by
  induction h with
  | reset => exact resetMeetsTheInvariant
  | act a _ hact ih => exact everyActionKeepsTheInvariant _ _ a ih hact

/-- Settles O54. -/
theorem everyReachableStateMeetsTheInvariant : Obligations.EveryReachableStateMeetsTheInvariant := fun _ h =>
  ⟨h.inv, step_next⟩

/-! ## One instruction undone by the next -/

/-- Settles O35: the load reads, at the same addresses, what the store has put there. -/
theorem storedRegistersAreLoadedBack : Obligations.StoredRegistersAreLoadedBack := by
  intro x s t u hin hstore hmem hI
  obtain ⟨t', hstore', hbytes, -⟩ := (registerStoreWritesV0ToVx x s).1 hin
  cases hstore.symm.trans hstore'
  obtain ⟨v, hload, hregs, -⟩ := (registerLoadReadsV0ToVx x u).1 (hI ▸ hin)
  refine ⟨v, hload, fun k hk => ?_⟩
  rw [hregs k hk, hmem, hI, hbytes k hk]

theorem FrameBuffer.ext_pixel {fb fb' : FrameBuffer} (h : ∀ y x, fb.pixel y x = fb'.pixel y x) : fb = fb' :=
  Vector.ext fun y hy => Vector.ext fun x hx => h ⟨y, hy⟩ ⟨x, hx⟩

/-- A sprite covers the same pixels from two states with the same memory, `I` and place on the screen. -/
theorem spriteCovers_congr {s t : State} {x y : Reg} (hmem : t.mem = s.mem) (hI : t.I = s.I)
    (hx : (readV t x).toNat % 64 = (readV s x).toNat % 64) (hy : (readV t y).toNat % 32 = (readV s y).toNat % 32)
    (n : Nat) (py : Fin 32) (px : Fin 64) : spriteCovers t x y n py px ↔ spriteCovers s x y n py px := by
  have hcol (b : Nat) : ((readV t x).toNat + b) % 64 = ((readV s x).toNat + b) % 64 := by omega
  have hline (r : Nat) : ((readV t y).toNat + r) % 32 = ((readV s y).toNat + r) % 32 := by omega
  simp only [spriteCovers, hmem, hI, hcol, hline]

/-- A second draw of the same pixels toggles each of them back. -/
theorem fb_drawSprite_drawSprite {s t : State} {x y : Reg} {n : Nat} (hn : n ≤ 32)
    (hfb : t.fb = (drawSprite x y n s).fb)
    (hcovers : ∀ py px, spriteCovers t x y n py px ↔ spriteCovers s x y n py px) :
    (drawSprite x y n t).fb = s.fb := by
  refine FrameBuffer.ext_pixel fun py px => ?_
  by_cases hs : spriteCovers s x y n py px
  · rw [pixel_drawSprite_of_covers hn ((hcovers py px).2 hs), hfb, pixel_drawSprite_of_covers hn hs, Bool.not_not]
  · rw [pixel_drawSprite_of_not_covers hn (mt (hcovers py px).1 hs), hfb, pixel_drawSprite_of_not_covers hn hs]

/-- Settles O41: the second draw covers the first one's pixels, each of them on exactly where it was off at first. -/
theorem drawingTwiceRestoresTheScreen : Obligations.DrawingTwiceRestoresTheScreen := by
  intro x y n s t hin hexec hx hy
  have hn : n.toNat ≤ 32 := by omega
  cases (exec_drwVxVyN_of_inRange x y hin).symm.trans hexec
  have hcovers := spriteCovers_congr (s := s) (t := advance (drawSprite x y n.toNat s)) rfl rfl hx hy n.toNat
  have hpixel {py px} (h : spriteCovers s x y n.toNat py px) :
      (advance (drawSprite x y n.toNat s)).fb.pixel py px = !(s.fb.pixel py px) := pixel_drawSprite_of_covers hn h
  refine ⟨_, exec_drwVxVyN_of_inRange x y hin, fb_drawSprite_drawSprite hn rfl hcovers, ?_, ?_⟩
  · rw [readV_advance, drawSprite_flag_eq_one_iff hn]
    refine exists_congr fun py => exists_congr fun px => ?_
    rw [hcovers]
    exact and_congr_right fun h => by rw [hpixel h, Bool.not_eq_true']
  · rw [readV_advance, drawSprite_flag_eq_zero_iff hn]
    refine forall_congr' fun py => forall_congr' fun px => ?_
    rw [hcovers]
    exact imp_congr_right fun h => by rw [hpixel h, Bool.not_eq_false']

/-- Settles O47: the first cycle's tick comes between the write and the read. -/
theorem delayReadAfterWriteIsOneLess : Obligations.DelayReadAfterWriteIsOneLess := by
  intro x y s t hwrite hstep hread
  have ⟨ht, _, _⟩ := hread
  obtain ⟨hDT, -⟩ := bothTimersTickOncePerCycle s t hstep ht
  obtain ⟨u, hu, hVy, -⟩ := (readDelayLoadsTheTimer y t).2 hread
  exact ⟨u, hu, by rw [hVy, hDT x hwrite]⟩

/-! ## Cycles that change the timers alone -/

theorem onlyWrites_tick (s : State) : OnlyWrites [] [.delay, .sound] s (tick s) := by
  refine ⟨fun _ _ => rfl, fun p hp => ?_, fun _ => rfl⟩
  cases p with
  | delay | sound => exact absurd (by decide) hp
  | index | slots | sp | keys | display | fault | draws => rfl

/-- Settles O44: with no key the cycle is a tick, and the next fetch is the same; with one, the lowest is taken. -/
theorem stalledKeyWaitChangesOnlyTimers : Obligations.StalledKeyWaitChangesOnlyTimers := by
  intro x s h
  refine ⟨fun hnone => ?_, fun k hk => ?_⟩
  · exact ⟨_, step_of_exec h (exec_ldVxK_of_none (lowestKey?_none.2 hnone) x) rfl, rfl, onlyWrites_tick s,
      tickTimer_toNat s.DT, tickTimer_toNat s.ST, h⟩
  · rcases hkey : lowestKey? s with _ | j
    · exact absurd hk (Bool.eq_false_iff.1 (lowestKey?_none.1 hkey k))
    · obtain ⟨-, hlow⟩ := lowestKey?_some hkey
      have hle : j ≤ k := not_lt.1 fun hlt => Bool.eq_false_iff.1 (hlow k hlt) hk
      refine ⟨_, step_of_exec h (exec_ldVxK_of_some hkey x) rfl, rfl, ?_⟩
      rw [readV_tick, readV_advance, readV_writeV_same, BitVec.toNat_ofNat]
      exact (Nat.mod_le _ _).trans hle

theorem lowestKey?_none_of_not_contains {s : State} (h : ¬ s.key.toList.contains true = true) :
    lowestKey? s = none := by
  refine lowestKey?_none.2 fun k => Bool.eq_false_iff.2 fun hk => h ?_
  rw [List.contains_iff_mem, Vector.mem_toList_iff, ← hk]
  exact Vector.getElem_mem k.isLt

/-- At an end of a run that is no fault, the next instruction leaves the state as it is. -/
theorem exec_of_runEnd? {s : State} {e : RunEnd} (he : e = .selfJump ∨ e = .stalledWait) (h : runEnd? s = some e) :
    ∃ i, Executes s i ∧ exec i s = .next s := by
  unfold runEnd? at h
  split at h
  · cases h
    exact absurd he (by simp)
  · next hs =>
    split at h
    · next hrange =>
      have hin := (fetchInRange_iff s).1 hrange
      split at h
      · next nnn hd =>
        split_ifs at h with htarget
        refine ⟨_, ⟨hs, hin, hd⟩, ?_⟩
        rw [exec, execJpNnn, htarget, jumpTo]
      · next x hd =>
        split_ifs at h with hkeys
        exact ⟨_, ⟨hs, hin, hd⟩, exec_ldVxK_of_none (lowestKey?_none_of_not_contains hkeys) x⟩
      · cases h
    · cases h

/-- Settles O57: the cycle is a tick, and no end of a run is told by a timer. -/
theorem endedRunStaysWhereItIs : Obligations.EndedRunStaysWhereItIs := by
  intro s e he h
  obtain ⟨i, hi, hexec⟩ := exec_of_runEnd? he h
  exact ⟨tick s, step_of_exec hi hexec rfl, rfl, onlyWrites_tick s, h⟩

/-! ## The random byte -/

theorem onlyWrites_nextDraw (s : State) (rs : List Reg) : OnlyWrites rs [.draws] s (nextDraw s) := by
  refine ⟨fun _ _ => rfl, fun p hp => ?_, fun _ => rfl⟩
  cases p with
  | draws => exact absurd List.mem_cons_self hp
  | index | slots | sp | delay | sound | keys | display | fault => rfl

/-- Settles O27: a register write of the masked draw, in the state whose next draw is another. -/
theorem randomByteIsMasked : Obligations.RandomByteIsMasked := by
  intro x nn s
  have hVx : readV (advance (writeV (nextDraw s) x (currentDraw s &&& nn))) x = Config.freeRand s.draws &&& nn := by
    rw [readV_advance, readV_writeV_same, currentDraw]
  exact ⟨_, rfl, ⟨_, hVx⟩, hVx, rfl, rfl, ((onlyWrites_nextDraw s [x]).writeV List.mem_cons_self _).advance⟩

/-! ## The inputs that instructions do not read -/

/-- The state with other key flags and another sound timer. -/
def State.withInputs (s : State) (keys : Vector Bool 16) (v : Byte) : State := { s with key := keys, ST := v }

/-- A check that does not look at them goes the same way. -/
theorem checkElse_withInputs {cond : Bool} {code : FaultCode} {s t u : State}
    (h : checkElse cond code s t = .next u) (keys : Vector Bool 16) (v : Byte) :
    checkElse cond code (s.withInputs keys v) (t.withInputs keys v) = .next (u.withInputs keys v) := by
  rcases checkElse_cases h with ⟨rfl, rfl⟩ | ⟨rfl, rfl⟩ <;> rfl

/-- An instruction that reads no key, or finds the same keys, and does not write `ST` carries both inputs through. -/
theorem exec_withInputs_of_not_sound {i : Instr} {s t : State} {keys : Vector Bool 16} (h : exec i s = .next t)
    (hkeys : readsKeys i = true → keys = s.key) (hw : mayWritePart i .sound = false) (v : Byte) :
    exec i (s.withInputs keys v) = .next (t.withInputs keys v) := by
  cases i with
  | cls | jpNnn | seVxNn | sneVxNn | seVxVy | sneVxVy | ldVxNn | addVxNn | ldVxVy | orVxVy | andVxVy | xorVxVy
  | addVxVy | subVxVy | shrVx | subnVxVy | shlVx | ldINnn | jpV0Nnn | rndVxNn | ldVxDt | ldDtVx | addIVx =>
    cases h; rfl
  | ldStVx => cases hw
  | drwVxVyN | ldFVx | ldBVx | ldMemVx | ldVxMem => exact checkElse_withInputs h keys v
  | skpVx | sknpVx =>
    obtain rfl := hkeys rfl
    exact checkElse_withInputs h s.key v
  | ldVxK x =>
    obtain rfl := hkeys rfl
    obtain ⟨hkey, rfl⟩ | ⟨k, hkey, rfl⟩ := exec_ldVxK_cases h
    · exact exec_ldVxK_of_none (s := State.withInputs _ _ v) hkey x
    · exact exec_ldVxK_of_some (s := s.withInputs s.key v) hkey x
  | ret =>
    obtain ⟨hSP, rfl⟩ | ⟨hpos, rfl⟩ := exec_ret_cases h
    · exact exec_ret_empty (s := s.withInputs keys v) (pop?_empty hSP)
    · exact exec_ret_of_pop? (s := s.withInputs keys v) (dif_pos hpos)
  | callNnn nnn =>
    obtain ⟨hSP, rfl⟩ | ⟨hroom, rfl⟩ := exec_callNnn_cases h
    · exact exec_callNnn_full (push?_full (s := s.withInputs keys v) hSP _) nnn
    · exact exec_callNnn_of_push? (s := s.withInputs keys v) (dif_pos hroom) nnn

/-- Fx18 overwrites `ST`; every other instruction carries it through. -/
theorem exec_withInputs {i : Instr} {s t : State} {keys : Vector Bool 16} (h : exec i s = .next t)
    (hkeys : readsKeys i = true → keys = s.key) (v : Byte) :
    ∃ w, exec i (s.withInputs keys v) = .next (t.withInputs keys w) ∧ (v = s.ST → w = t.ST) := by
  by_cases hsound : ∃ x, i = .ldStVx x
  · obtain ⟨x, rfl⟩ := hsound
    cases h
    exact ⟨readV s x, rfl, fun _ => rfl⟩
  · have hw : mayWritePart i .sound = false := (mayWritePart_sound_eq_false_iff i).2 fun x hx => hsound ⟨x, hx⟩
    have hST : t.ST = s.ST := exec_part_kept h hw nofun
    exact ⟨v, exec_withInputs_of_not_sound h hkeys hw v, fun hv => hv.trans hST.symm⟩

/-- A step carries the other keys and some sound timer through, and the same timer where it had the same. -/
theorem step_withInputs {s t : State} {keys : Vector Bool 16} (h : step s = .next t)
    (hkeys : ∀ i, Executes s i → readsKeys i = true → keys = s.key) (v : Byte) :
    ∃ w, step (s.withInputs keys v) = .next (t.withInputs keys w) ∧ (v = s.ST → w = t.ST) := by
  obtain ⟨hs, ⟨hout, rfl⟩ | ⟨hin, ⟨op, hd⟩, rfl⟩ | ⟨i, u, hi, hu, hend⟩⟩ := step_cases h
  · exact ⟨v, step_fetch_fault hs hout, id⟩
  · exact ⟨tickTimer v, step_unknown hs hin hd, congrArg tickTimer⟩
  · obtain ⟨w, hu', hST⟩ := exec_withInputs hu (hkeys i hi) v
    have hi' : Executes (s.withInputs keys v) i := hi
    rw [step_executes hi', hu', endResult]
    obtain ⟨hrun, rfl⟩ | ⟨hstop, rfl⟩ := hend
    · rw [endCycle_of_running (s := u.withInputs keys w) hrun]
      exact ⟨tickTimer w, rfl, fun hv => congrArg tickTimer (hST hv)⟩
    · rw [endCycle_of_stopped (s := State.withInputs _ keys w) hstop]
      exact ⟨w, rfl, hST⟩

/-- No step writes the keys. -/
theorem step_key {s t : State} (h : step s = .next t) : t.key = s.key := by
  obtain ⟨-, ⟨-, rfl⟩ | ⟨-, -, rfl⟩ | ⟨i, u, -, hu, hend⟩⟩ := step_cases h
  · rfl
  · rfl
  · have hkept : u.key = s.key := exec_part_kept (p := .keys) hu rfl nofun
    obtain ⟨-, rfl⟩ | ⟨-, rfl⟩ := hend
    · exact hkept
    · exact hkept

/-- Settles O55: the step from the state with other keys and its own sound timer. -/
theorem keysAreReadOnlyByKeyInstructions : Obligations.KeysAreReadOnlyByKeyInstructions := by
  intro s t keys h
  refine ⟨step_key h, fun hno => ?_⟩
  obtain ⟨w, hstep, hST⟩ := step_withInputs (keys := keys) h (fun i hi hr => by rw [hno i hi] at hr; cases hr) s.ST
  rwa [hST rfl] at hstep

/-- Settles O56: the step from the state with its own keys and another sound timer. -/
theorem soundTimerIsReadByNoInstruction : Obligations.SoundTimerIsReadByNoInstruction := by
  intro s t v h
  obtain ⟨w, hstep, -⟩ := step_withInputs h (fun _ _ _ => rfl) v
  refine ⟨w, hstep.trans ?_⟩
  rw [← step_key h]
  rfl

/-! ## A core without a program -/

/-- A run of one step more is the run and then a step. -/
theorem run_succ_of_run {M : Host.Core} {k : Nat} {s t : M.State} (h : M.run k s = .next t) :
    M.run (k + 1) s = M.step t := by
  induction k generalizing s with
  | zero =>
    cases h
    rw [Host.Core.run]
    rcases M.step t with _ | _ | _ <;> rfl
  | succ k ih =>
    rw [Host.Core.run] at h ⊢
    rcases hstep : M.step s with s' | _ | _ <;> rw [hstep] at h
    · exact ih h
    · cases h
    · cases h

/-- The state after `k` cycles with no program loaded, while `PC` is in memory. -/
def unloadedAfter (k : Nat) : State := { State.reset with PC := BitVec.ofNat 16 (0x200 + 2 * k) }

theorem unloadedAfter_PC_toNat {k : Nat} (hk : k ≤ 1792) : (unloadedAfter k).PC.toNat = 0x200 + 2 * k := by
  rw [unloadedAfter, BitVec.toNat_ofNat]
  omega

theorem unloadedAfter_PC_le {k : Nat} (hk : k < 1792) : (unloadedAfter k).PC.toNat ≤ 0xFFE := by
  rw [unloadedAfter_PC_toNat hk.le]
  omega

/-- Memory holds zeros from the end of the font on. -/
theorem fetchWord_unloadedAfter {k : Nat} (hk : k ≤ 1792) : fetchWord (unloadedAfter k) = 0 := by
  have hread {a : Nat} (ha : 0x050 ≤ a) : (unloadedAfter k).mem.read a = 0 := resetByte_of_font_le ha
  rw [fetchWord_eq, unloadedAfter_PC_toNat hk, hread (by omega), hread (by omega)]
  rfl

theorem decode_fetchWord_unloadedAfter {k : Nat} (hk : k ≤ 1792) :
    decode (fetchWord (unloadedAfter k)) = .unknown 0 := by
  rw [fetchWord_unloadedAfter hk]
  rfl

/-- The cycle of an unknown word, with both timers at 0, moves `PC` alone. -/
theorem unloadedAfter_succ (k : Nat) : tick (advance (unloadedAfter k)) = unloadedAfter (k + 1) := by
  have hPC : (unloadedAfter k).PC + 2 = (unloadedAfter (k + 1)).PC := by
    simp only [unloadedAfter]
    bv_omega
  rw [advance, hPC]
  rfl

theorem step_unloadedAfter {k : Nat} (hk : k < 1792) : step (unloadedAfter k) = .next (unloadedAfter (k + 1)) := by
  rw [step_unknown rfl (unloadedAfter_PC_le hk) (decode_fetchWord_unloadedAfter hk.le), unloadedAfter_succ]

theorem run_unloadedAfter {k : Nat} (hk : k ≤ 1792) : core.run k State.reset = .next (unloadedAfter k) := by
  induction k with
  | zero => rfl
  | succ k ih => exact (run_succ_of_run (ih (by omega))).trans (step_unloadedAfter hk)

/-- Settles O51. -/
theorem unloadedCoreRunsOffTheEndOfMemory : Obligations.UnloadedCoreRunsOffTheEndOfMemory := by
  refine ⟨fun k hk => run_unloadedAfter hk, fun k hk s hs => ?_, ?_⟩
  · cases (run_unloadedAfter hk.le).symm.trans hs
    have hword := fetchWord_unloadedAfter hk.le
    refine reportOut_eq_some_iff.2 ⟨rfl, unloadedAfter_PC_le hk, ?_, ?_⟩
    · rw [decode_fetchWord_unloadedAfter hk.le, hword]
    · rw [hword]
      rfl
  · have hout : 0xFFE < (unloadedAfter 1792).PC.toNat := by
      rw [unloadedAfter_PC_toNat le_rfl]
      decide
    exact (run_succ_of_run (run_unloadedAfter le_rfl)).trans (step_fetch_fault rfl hout)

end Sys2Proof.Machine
